-- ==== Sys2Proof/Word.lean ====
section
/-! DEFINITION. The word types of the block: the 32-bit word every generator value, array word, seed
and sample is (spec/00_scope.md R6), and the 40-bit command word (spec/00_scope.md R10). Bit 0 is the
least significant bit and every value is unsigned (R11), which is how `BitVec` numbers its bits. -/

namespace Sys2Proof

/-- A 32-bit unsigned word (R6, `XLEN = 32`). -/
abbrev Word := BitVec 32

/-- A 40-bit command word `op[39:32], data[31:0]` as the host sends it (R10, R74). -/
abbrev Cmd := BitVec 40

end Sys2Proof
end

