-- ==== Sys2Proof/Syntax.lean ====
section
/-! DEFINITION. The eleven commands of MPB command set 1.0 (spec/30_encoding.md R77), one constructor
per row of spec/opcode_table.json. A command that takes an operand carries the whole 32-bit `data`
field, unsigned and unsplit (R76); the six commands without one carry nothing, since `data` is ignored
for them (R78). Unassigned opcodes are no command: the decoder rejects them by name (R79, R82). -/

namespace Sys2Proof

inductive Instr where
  /-- `NOP` (R90). -/
  | nop
  /-- `SEED s`: `s` is the seed (R91). -/
  | seed (s : Word)
  /-- `SYS.RD r`: `r` is a system register number (R92, R33). -/
  | sysRd (r : Word)
  /-- `LCG.NEXT` (R100). -/
  | lcgNext
  /-- `LCG.RD` (R101). -/
  | lcgRd
  /-- `MT.START` (R111). -/
  | mtStart
  /-- `MT.NEXT` (R112). -/
  | mtNext
  /-- `MT.RD i`: `i` is an MT word index (R115). -/
  | mtRd (i : Word)
  /-- `ST.CLR` (R130). -/
  | stClr
  /-- `ST.PUSH w`: `w` is a sample word (R131). -/
  | stPush (w : Word)
  /-- `ST.RD r`: `r` is a statistic register number (R132, R34). -/
  | stRd (r : Word)
  deriving DecidableEq, Repr

end Sys2Proof
end

