-- ==== Sys2Proof/Decode.lean ====
section
/-! DEFINITION. The decoder and the encoder of the 40-bit command word (spec/30_encoding.md R74, R77 to
R82), and the pseudo-instructions' expansions (R84, R85). Decoding is total on 40 bits: a word whose
opcode is unassigned is rejected by name, `Decoded.illegal`. -/

namespace Sys2Proof

/-- What a command word decodes to (R82): one of the eleven commands, or the illegal command, which
executes as `fail(ILLEGAL)` and is no row of the opcode table. -/
inductive Decoded where
  | command (i : Instr)
  | illegal (op : BitVec 8)
  deriving DecidableEq, Repr

/-- The field `op = cmd[39:32]` (R74). -/
def opField (w : Cmd) : BitVec 8 := w.extractLsb' 32 8

/-- The field `data = cmd[31:0]` (R74). -/
def dataField (w : Cmd) : Word := w.extractLsb' 0 32

/-- The opcode map by its two fields (R77): every command is selected by `op` alone; the six commands
without an operand drop `data` (R78); every other opcode is illegal whatever `data` holds (R79). -/
def decodeFields (op : BitVec 8) (data : Word) : Decoded :=
  if op = 0x00#8 then .command .nop
  else if op = 0x01#8 then .command (.seed data)
  else if op = 0x02#8 then .command (.sysRd data)
  else if op = 0x10#8 then .command .lcgNext
  else if op = 0x11#8 then .command .lcgRd
  else if op = 0x20#8 then .command .mtStart
  else if op = 0x21#8 then .command .mtNext
  else if op = 0x22#8 then .command (.mtRd data)
  else if op = 0x30#8 then .command .stClr
  else if op = 0x31#8 then .command (.stPush data)
  else if op = 0x32#8 then .command (.stRd data)
  else .illegal op

/-- `decode : 40 bits -> Command` (R82). -/
def decode (w : Cmd) : Decoded := decodeFields (opField w) (dataField w)

/-- The opcode of each command (R77). -/
def Instr.opcode : Instr → BitVec 8
  | .nop => 0x00#8
  | .seed _ => 0x01#8
  | .sysRd _ => 0x02#8
  | .lcgNext => 0x10#8
  | .lcgRd => 0x11#8
  | .mtStart => 0x20#8
  | .mtNext => 0x21#8
  | .mtRd _ => 0x22#8
  | .stClr => 0x30#8
  | .stPush _ => 0x31#8
  | .stRd _ => 0x32#8

/-- The operand a command carries in `data`, or none for the six commands that take none (R76, R78). -/
def Instr.operand : Instr → Option Word
  | .nop => none
  | .seed s => some s
  | .sysRd r => some r
  | .lcgNext => none
  | .lcgRd => none
  | .mtStart => none
  | .mtNext => none
  | .mtRd i => some i
  | .stClr => none
  | .stPush w => some w
  | .stRd r => some r

/-- The encoding of a command: `op` above `operand`, or above 0 when there is no operand (R83). -/
def encode (i : Instr) : Cmd := i.opcode ++ i.operand.getD 0

/-- `LCG.GEN n` expands to `n` consecutive `LCG.NEXT` (R84). -/
def lcgGen (n : Nat) : List Instr := List.replicate n .lcgNext

/-- `MT.GEN n` expands to `MT.START` and `n` consecutive `MT.NEXT` (R85). -/
def mtGen (n : Nat) : List Instr := .mtStart :: List.replicate n .mtNext

/-- The command word whose low `nbits` bits are those of `w` and whose bits above are 0, numbered as
spec/opcode_table.json numbers them: one word of 40 bits, bit 0 its least significant bit. -/
def tableWord (nbits w : Nat) : Cmd := BitVec.ofNat 40 (w % 2 ^ nbits)

/-- The instruction this decoder reads from a word of the opcode table, none where it is illegal. -/
def decodeTableWord (nbits w : Nat) : Option Instr :=
  match decode (tableWord nbits w) with
  | .command i => some i
  | .illegal _ => none

end Sys2Proof
end

