-- ==== Sys2Proof/Config.lean ====
section
/-! DEFINITION. What an implementation of the block fixes. The one parameter the spec leaves OPEN is
the accumulator's capacity (spec/92_eei_decisions.md D15). The wired constants of the two generators
stand beside the commands that use them (Machine/Lcg.lean, Machine/Mt.lean). No result of a command is
left undefined by the spec (spec/00_scope.md R18), so there is no free value here. -/

namespace Sys2Proof.Config

/-- `ST_NMAX`, the most sample words one sample may have (R9): the default of the OPEN parameter of
D15. DESIGN CHOICE, unsafe: see log entry 8. -/
def stNMax : Nat := 2 ^ 27 - 1

/-- `MT_N`, the number of words of the MT array (R8). -/
def mtN : Nat := 624

end Sys2Proof.Config
end

