-- ==== Sys2Proof/Machine/State.lean ====
section
/-! DEFINITION. The state of the block (spec/10_state.md R20), of its command and response channels
(spec/30_encoding.md R70 to R75), the reasons a step can stop, and the state after reset
(spec/10_state.md R43, spec/70_reset_and_hazards.md R181). Plain data only. -/

namespace Sys2Proof.Machine

/-- The five status codes of spec/60_exceptions.md R151; codes 5 to 15 are never produced (U4). -/
inductive Status where
  | ok
  | illegal
  | range
  | unseeded
  | full
  deriving DecidableEq, Repr

/-- One response, `status` and `data` (spec/30_encoding.md R75). -/
structure Response where
  status : Status
  data : Word
  deriving DecidableEq, Repr

/-- One act of the host (spec/30_encoding.md R70, R73): the model's input, see log entries 1 and 11. -/
inductive HostAct where
  /-- The host sends a command word (any 40-bit value, R73). -/
  | command (w : Cmd)
  /-- The host accepts the response on offer, if there is one. -/
  | accept
  /-- The host asserts `rst` and releases it (spec/70_reset_and_hazards.md R180). -/
  | reset
  deriving DecidableEq, Repr

/-- One word of the MT array: its word index and its content (spec/20_memory.md R50: the word is the
unit of addressing and there is no narrower access; log entry 6). -/
abbrev Cell := Nat × Word

/-- The MT array as the list of its words that are not `Memory.unlisted`, word indices strictly rising
(`Memory.wf` in Machine/Ops.lean). -/
abbrev Memory := List Cell

/-- The block and its two channels. The first eleven fields are the whole state of the block (R20);
`rsp`, `host` and `delivered` are the model's own, for the interface. -/
structure State where
  /-- `SEED` (R21). -/
  seed : Word
  /-- `X`, the LCG state (R22). -/
  x : Word
  /-- `MT[0..623]` (R23). -/
  mt : Memory
  /-- `IDX`, the MT output cursor, a 10-bit register (R24). -/
  idx : BitVec 10
  /-- `N`, the number of words pushed (R25). -/
  n : Word
  /-- `ONES`, the number of one bits pushed (R26). -/
  ones : Word
  /-- `RUNS`, the number of maximal runs pushed (R27). -/
  runs : Word
  /-- `PREV`, the last word pushed (R28). -/
  prev : Word
  /-- `STATUS.SEEDED` (R30). -/
  seeded : Bool
  /-- `STATUS.ERR` (R31). -/
  err : Bool
  /-- `STATUS.ERRCODE` (R32). -/
  errcode : BitVec 4
  /-- The response on offer (`rsp_valid`, `rsp_status`, `rsp_data`); none when `rsp_valid = 0` (R70). -/
  rsp : Option Response
  /-- The host's acts still to come, the next one first (R73; log entry 1). -/
  host : List HostAct
  /-- The responses transferred to the host so far, oldest first (R72; log entry 2). -/
  delivered : List Response
  deriving DecidableEq, Repr

/-- Why the machine can stop with a fault. -/
inductive Fault where
  /-- Raised by `MT.NEXT` alone, when `IDX` is 624 to 1023 and `MT[IDX]` does not exist (R50); the spec
  says those values never occur (R24), and no run reaches them. Safe: the model stops there (log entry 7). -/
  | mtIndexOutOfRange
  deriving DecidableEq, Repr

/-- Why an instruction can have no meaning. -/
inductive Refusal where
  /-- Raised by `exec` for an instruction without a meaning yet; no arm raises it. Safe. -/
  | notModelled (mnemonic : String)
  deriving DecidableEq, Repr

/-- The machine right after reset: the six values R43 and R181 give; the host has done nothing and no
response is on offer. DESIGN CHOICE, unsafe: the spec leaves `SEED`, `X`, `MT[]`, `IDX` and `PREV`
unspecified, and here they are 0 (log entries 4 and 5); no command can observe them (R182). -/
def State.reset : State where
  seed := 0
  x := 0
  mt := []
  idx := 0
  n := 0
  ones := 0
  runs := 0
  prev := 0
  seeded := false
  err := false
  errcode := 0
  rsp := none
  host := []
  delivered := []

end Sys2Proof.Machine
end

