-- ==== Sys2Proof/Machine/Ops.lean ====
section
/-! DEFINITION. The named operations over the MT array and the registers: reading, writing and filling
the array (spec/20_memory.md R50), responding (spec/00_scope.md R13), and failing
(spec/60_exceptions.md R152), the block's one way of taking an exception. There is no return from one:
a failure saves nothing and transfers control nowhere (R162, R163). -/

namespace Sys2Proof.Machine

/-! ## The MT array -/

/-- What a word of the array that is not listed reads as. DESIGN CHOICE, unsafe: the spec leaves the
array unspecified at reset (R43), and unreadable until `SEED` writes every word (log entry 5). -/
def Memory.unlisted : Word := 0

/-- The canonical form: word indices strictly rising and inside 0 to 623, and no listed word equal to
what an unlisted one reads as. Equal arrays are equal lists. -/
abbrev Memory.wf (m : Memory) : Prop :=
  m.Pairwise (fun a b => a.1 < b.1) ∧ ∀ c ∈ m, c.1 < Config.mtN ∧ c.2 ≠ Memory.unlisted

/-- `MT[i]`, read (R50). -/
def Memory.read : Memory → Nat → Word
  | [], _ => Memory.unlisted
  | (k, v) :: m, i => if k = i then v else Memory.read m i

/-- `MT[i]`, read as the spec defines it: only for `0 <= i <= 623` (R50). -/
def Memory.word? (m : Memory) (i : Nat) : Option Word :=
  if i < Config.mtN then some (m.read i) else none

/-- `MT[i] <- v` (R50), keeping the canonical form. -/
def Memory.write : Memory → Nat → Word → Memory
  | [], i, v => if v = Memory.unlisted then [] else [(i, v)]
  | (k, u) :: m, i, v =>
    if k < i then (k, u) :: Memory.write m i v
    else if k = i then (if v = Memory.unlisted then m else (i, v) :: m)
    else if v = Memory.unlisted then (k, u) :: m
    else (i, v) :: (k, u) :: m

/-- The array whose words from index `i` on are `ws`, and every other word `Memory.unlisted`. -/
def Memory.ofWords : Nat → List Word → Memory
  | _, [] => []
  | i, w :: ws =>
    if w = Memory.unlisted then Memory.ofWords (i + 1) ws else (i, w) :: Memory.ofWords (i + 1) ws

/-! ## Responses and failures -/

/-- The 4-bit code of a status (R151). -/
def Status.code : Status → BitVec 4
  | .ok => 0
  | .illegal => 1
  | .range => 2
  | .unseeded => 3
  | .full => 4

/-- `rsp(status, data)` (R13): the response of the command that ends here. -/
def State.respond (s : State) (st : Status) (d : Word) : State :=
  { s with rsp := some ⟨st, d⟩ }

/-- The latch of a failure (R152): `ERR` is 1 from the first failure on, and `ERRCODE` keeps that
failure's code. -/
def State.latch (s : State) (code : Status) : State :=
  { s with err := true, errcode := if s.err then s.errcode else code.code }

/-- `fail(code)` (R152): the latch, the response `(code, 0)`, and nothing else. -/
def State.fail (s : State) (code : Status) : State := (s.latch code).respond code 0

/-- A command that succeeds with response data `d` (R75: 0 when it returns nothing). -/
def done (s : State) (d : Word) : Host.Outcome State Fault Refusal := .next (s.respond .ok d)

/-- A command that fails with `code`: a next state, since a failure is no stop (R150). -/
def failed (s : State) (code : Status) : Host.Outcome State Fault Refusal := .next (s.fail code)

/-- The check every command that reads generator state makes (R155): it fails with UNSEEDED while
`SEEDED = 0`, and is `k` otherwise. -/
def whenSeeded (s : State) (k : Host.Outcome State Fault Refusal) :
    Host.Outcome State Fault Refusal :=
  if s.seeded then k else failed s .unseeded

end Sys2Proof.Machine
end

