-- ==== Sys2Proof/Machine/Lcg.lean ====
section
/-! DEFINITION. The LCG unit (spec/41_lcg.md): the recurrence and the commands `LCG.NEXT`, `LCG.RD`. -/

namespace Sys2Proof.Machine

/-- `LCG_A` (spec/00_scope.md R7). -/
def lcgA : Nat := 1664525

/-- `LCG_C` (spec/00_scope.md R7): the document's literal, see log entry 9. -/
def lcgC : Nat := 1013904221

/-- One step of the recurrence (R100, R102): the low 32 bits of the exact integer `LCG_A * X + LCG_C`.
(The constant is written first so that Lean's kernel never counts it down in unary.) -/
def lcgStep (x : Word) : Word := BitVec.ofNat 32 (lcgC + lcgA * x.toNat)

/-- `LCG.NEXT` (R100): responds with the new `X`. -/
def execLcgNext (s : State) : Host.Outcome State Fault Refusal :=
  whenSeeded s (done { s with x := lcgStep s.x } (lcgStep s.x))

/-- `LCG.RD` (R101). -/
def execLcgRd (s : State) : Host.Outcome State Fault Refusal :=
  whenSeeded s (done s s.x)

end Sys2Proof.Machine
end

