-- ==== Sys2Proof/Machine/Operands.lean ====
section
/-! DEFINITION. The operand forms (spec/30_encoding.md R76): the register numbers of `SYS.RD` and
`ST.RD` and the word index of `MT.RD`. The whole 32-bit operand is compared against the legal range; an
operand outside it is none here, and a RANGE failure of the command (R80). The seed of `SEED` and the
word of `ST.PUSH` are the operand itself, any value. -/

namespace Sys2Proof.Machine

/-- The system registers (spec/10_state.md R33). -/
inductive SysReg where
  | status
  | seed
  | mtIdx
  deriving DecidableEq, Repr

/-- The statistic registers (spec/10_state.md R34). -/
inductive StatReg where
  | n
  | ones
  | runs
  deriving DecidableEq, Repr

/-- The register numbers of `SYS.RD` (R33): 0, 1, 2, and none from 3 on. -/
def sysRegOf (r : Word) : Option SysReg :=
  if r = 0 then some .status else if r = 1 then some .seed else if r = 2 then some .mtIdx else none

/-- The register numbers of `ST.RD` (R34): 0, 1, 2, and none from 3 on. -/
def statRegOf (r : Word) : Option StatReg :=
  if r = 0 then some .n else if r = 1 then some .ones else if r = 2 then some .runs else none

/-- The word index of `MT.RD` (R115): the operand itself, and none from 624 on; no wrap-around
(spec/20_memory.md R54). -/
def mtIndexOf (i : Word) : Option Nat :=
  if i.toNat < Config.mtN then some i.toNat else none

end Sys2Proof.Machine
end

