-- ==== Sys2Proof/Machine/Mt.lean ====
section
/-! DEFINITION. The MT unit (spec/42_mt.md): the seeding recurrence, the twist, the tempering and the
commands `MT.START`, `MT.NEXT`, `MT.RD`. The constants are those of spec/00_scope.md R8. -/

namespace Sys2Proof.Machine

/-! ## Seeding (R110) -/

/-- One step of the seeding recurrence (R110, R121): `MT[i]` from `p = MT[i-1]`, the low 32 bits of the
exact integer. -/
def mtSeedNext (p : Word) (i : Nat) : Word :=
  BitVec.ofNat 32 (1812433253 * (p ^^^ (p >>> 30)).toNat + i)

/-- The word `p` at index `i` and the `k` words after it, each from the one before (R110, R189). -/
def mtSeedWords : Nat → Nat → Word → List Word
  | 0, _, p => [p]
  | k + 1, i, p => p :: mtSeedWords k (i + 1) (mtSeedNext p (i + 1))

/-- `mt_seed(s)` (R110): all 624 words written, so nothing of an earlier array is left (log entry 10). -/
def mtSeed (s : Word) : Memory := Memory.ofWords 0 (mtSeedWords 623 0 s)

/-! ## The twist (R113) -/

/-- The word step `i` of a twist writes, from the array as it is at that moment (R113). `+` is `|`
(R118). -/
def twistWord (m : Memory) (i : Nat) : Word :=
  let y := (m.read i &&& 0x80000000#32) ||| (m.read ((i + 1) % 624) &&& 0x7FFFFFFF#32)
  let v := m.read ((i + 397) % 624) ^^^ (y >>> 1)
  if y.getLsbD 0 then v ^^^ 0x9908B0DF#32 else v

/-- Step `i` of a twist: `MT[i]` is overwritten in place (R113). -/
def twistStep (m : Memory) (i : Nat) : Memory := m.write i (twistWord m i)

/-- `twist()` (R113): the steps 0 to 623 strictly in this order, in place (spec/90_conflicts.md C1). -/
def twist (m : Memory) : Memory := (List.range 624).foldl twistStep m

/-! ## Tempering (R114) -/

/-- `temper(y)` (R114): each line uses the result of the line before on both sides, and a left shift
keeps 32 bits (spec/00_scope.md R12). -/
def temper (y : Word) : Word :=
  let y1 := y ^^^ (y >>> 11)
  let y2 := y1 ^^^ ((y1 <<< 7) &&& 0x9D2C5680#32)
  let y3 := y2 ^^^ ((y2 <<< 15) &&& 0xEFC60000#32)
  y3 ^^^ (y3 >>> 18)

/-! ## Commands -/

/-- The cursor after a draw (R112): 623 wraps to 0. -/
def nextIdx (idx : BitVec 10) : BitVec 10 := if idx = 623 then 0 else idx + 1

/-- The array a draw reads from (R112): twisted first when `IDX = 0`. -/
def drawArray (s : State) : Memory := if s.idx = 0 then twist s.mt else s.mt

/-- `MT.START` (R111): the cursor to 0; no twist. -/
def execMtStart (s : State) : Host.Outcome State Fault Refusal :=
  whenSeeded s (done { s with idx := 0 } 0)

/-- `MT.NEXT` (R112): the tempered word goes out and the untempered one stays (R190). An `IDX` of 624 or
more has no word (R50) and never occurs (R24): the model faults there (log entry 7). -/
def execMtNext (s : State) : Host.Outcome State Fault Refusal :=
  whenSeeded s <|
    match (drawArray s).word? s.idx.toNat with
    | none => .fault .mtIndexOutOfRange
    | some y => done { s with mt := drawArray s, idx := nextIdx s.idx } (temper y)

/-- `MT.RD i` (R115): RANGE is checked before UNSEEDED (spec/60_exceptions.md R157). -/
def execMtRd (i : Word) (s : State) : Host.Outcome State Fault Refusal :=
  match mtIndexOf i with
  | none => failed s .range
  | some k => whenSeeded s (done s (s.mt.read k))

end Sys2Proof.Machine
end

