-- ==== Sys2Proof/Machine/Stat.lean ====
section
/-! DEFINITION. The ST unit (spec/43_stat.md): the commands `ST.CLR`, `ST.PUSH`, `ST.RD`. None needs
`SEEDED` and none touches the generators (spec/40_system.md R94). -/

namespace Sys2Proof.Machine

/-- `popcount(w)` (R133): `w[0] + w[1] + ... + w[31]`. -/
def popcount (w : Word) : Nat := ((List.range 32).map (fun i => (w.getLsbD i).toNat)).sum

/-- `ST.CLR` (R130): the three counters to 0; `PREV` stays, unread while `N = 0`. -/
def execStClr (s : State) : Host.Outcome State Fault Refusal :=
  done { s with n := 0, ones := 0, runs := 0 } 0

/-- `ST.PUSH w` (R131): it compares with the old `PREV` and `N` before it updates them (R191), and fails
with FULL, counting nothing, at `ST_NMAX` words (R137). -/
def execStPush (w : Word) (s : State) : Host.Outcome State Fault Refusal :=
  if s.n = BitVec.ofNat 32 Config.stNMax then failed s .full
  else
    done
      { s with
        ones := s.ones + BitVec.ofNat 32 (popcount w)
        runs := if s.n = 0 ∨ w ≠ s.prev then s.runs + 1 else s.runs
        prev := w
        n := s.n + 1 } 0

/-- `ST.RD r` (R132). -/
def execStRd (r : Word) (s : State) : Host.Outcome State Fault Refusal :=
  match statRegOf r with
  | none => failed s .range
  | some .n => done s s.n
  | some .ones => done s s.ones
  | some .runs => done s s.runs

end Sys2Proof.Machine
end

