-- ==== Sys2Proof/Machine/Flags.lean ====
section
/-! DEFINITION. The status register as one word (spec/10_state.md R29). The block has no arithmetic
flags (R41); the fields of STATUS are stored in State and this word is computed from them. What changes
them: `State.latch` (ERR, ERRCODE), `SEED` (SEEDED) and reset. -/

namespace Sys2Proof.Machine

/-- The 32-bit layout of `STATUS` (R29): `SEEDED` in bit 0, `ERR` in bit 1, `ERRCODE` in bits 7:4, and
0 in every other bit. -/
def statusWord (s : State) : Word :=
  (0#24 ++ s.errcode ++ 0#2 ++ BitVec.ofBool s.err ++ BitVec.ofBool s.seeded : BitVec 32)

end Sys2Proof.Machine
end

