-- ==== Sys2Proof/Machine/System.lean ====
section
/-! DEFINITION. The system commands (spec/40_system.md): `NOP`, `SEED`, `SYS.RD`, and what an unassigned
opcode does (spec/60_exceptions.md R153). -/

namespace Sys2Proof.Machine

/-- `NOP` (R90). -/
def execNop (s : State) : Host.Outcome State Fault Refusal := done s 0

/-- `SEED v` (R91): both generators seeded at once, the array filled eagerly and not twisted; the
accumulator and the error latch are not touched (R94). -/
def execSeed (v : Word) (s : State) : Host.Outcome State Fault Refusal :=
  done { s with seed := v, x := v, mt := mtSeed v, idx := 0, seeded := true } 0

/-- `SYS.RD r` (R92): RANGE first, then UNSEEDED for `SEED` and `MTIDX`; `STATUS` always succeeds. -/
def execSysRd (r : Word) (s : State) : Host.Outcome State Fault Refusal :=
  match sysRegOf r with
  | none => failed s .range
  | some .status => done s (statusWord s)
  | some .seed => whenSeeded s (done s s.seed)
  | some .mtIdx => whenSeeded s (done s (s.idx.setWidth 32))

/-- The illegal command (R79, R153): `fail(ILLEGAL)`, whatever its `data`. -/
def execIllegal (s : State) : Host.Outcome State Fault Refusal := failed s .illegal

end Sys2Proof.Machine
end

