-- ==== Sys2Proof/Machine/Dispatch.lean ====
section
/-! DEFINITION. The dispatch: one arm per command, one direct call of its meaning. -/

namespace Sys2Proof.Machine

def exec (i : Instr) (s : State) : Host.Outcome State Fault Refusal :=
  match i with
  | .nop => Sys2Proof.Machine.execNop s
  | .seed v => Sys2Proof.Machine.execSeed v s
  | .sysRd r => Sys2Proof.Machine.execSysRd r s
  | .lcgNext => Sys2Proof.Machine.execLcgNext s
  | .lcgRd => Sys2Proof.Machine.execLcgRd s
  | .mtStart => Sys2Proof.Machine.execMtStart s
  | .mtNext => Sys2Proof.Machine.execMtNext s
  | .mtRd k => Sys2Proof.Machine.execMtRd k s
  | .stClr => Sys2Proof.Machine.execStClr s
  | .stPush w => Sys2Proof.Machine.execStPush w s
  | .stRd r => Sys2Proof.Machine.execStRd r s

end Sys2Proof.Machine
end

