-- ==== Sys2Proof/Machine/Port.lean ====
section
/-! DEFINITION. The command port (spec/30_encoding.md R70 to R75): what each act of the host does to the
block. Only the sequence of transfers is modelled, as R70 says that nothing else matters to a rule. -/

namespace Sys2Proof.Machine

/-- `cmd_ready` with `rst = 0`: low from a command's transfer until its response's transfer (R71). -/
def State.cmdReady (s : State) : Bool := s.rsp.isNone

/-- `rsp_valid` with `rst = 0`: a response is on offer (R70). -/
def State.rspValid (s : State) : Bool := s.rsp.isSome

/-- The 36 bits of a response, `status` above `data` (R75). -/
def Response.bits (r : Response) : BitVec 36 := (r.status.code ++ r.data : BitVec 36)

/-- The response on offer, if any, is transferred to the host (R70, R72). -/
def State.takeResponse (s : State) : State :=
  { s with rsp := none, delivered := s.delivered ++ s.rsp.toList }

/-- What one accepted command word does (R57, R82): the command it decodes to, or the illegal one. -/
def runCommand (w : Cmd) (s : State) : Host.Outcome State Fault Refusal :=
  match decode w with
  | .command i => exec i s
  | .illegal _ => execIllegal s

/-- The block after `rst` (spec/70_reset_and_hazards.md R181): every register as after the first reset,
and a response not yet transferred is lost (R183). The host's own acts and its record of responses are
not the block's and stay (log entry 11). -/
def State.afterReset (s : State) : State :=
  { State.reset with host := s.host, delivered := s.delivered }

/-- One act of the host. A command is accepted only once the response to the one before it has been
transferred (R71), which is the host's duty (R73), so that transfer comes first (log entry 2). -/
def serve (a : HostAct) (s : State) : Host.Outcome State Fault Refusal :=
  match a with
  | .command w => runCommand w s.takeResponse
  | .accept => .next s.takeResponse
  | .reset => .next s.afterReset

/-- The next act of the host, taken off its list; without one the block is idle and keeps all state
(spec/60_exceptions.md R165; log entry 3). -/
def serveNext (s : State) : Host.Outcome State Fault Refusal :=
  match s.host with
  | [] => .next s
  | a :: rest => serve a { s with host := rest }

end Sys2Proof.Machine
end

