-- ==== Sys2Proof/Machine/Step.lean ====
section
/-! DEFINITION. One step of the machine: the next act of the host (spec/00_scope.md R18,
spec/20_memory.md R57). The block fetches nothing and has no program counter (spec/10_state.md R40):
its next instruction is the next command word the host sends. -/

namespace Sys2Proof.Machine

def step (s : State) : Host.Outcome State Fault Refusal := serveNext s

/-- `s` with the command word of the opcode table's bits `w` as the host's very next act, before those
already to come (log entry 1). -/
def State.withFetchWord (s : State) (nbits w : Nat) : State :=
  { s with host := .command (tableWord nbits w) :: s.host }

end Sys2Proof.Machine
end

