-- ==== Sys2Proof/Machine/Asm.lean ====
section
/-! DEFINITION. The assembler syntax of spec/30_encoding.md R83: one command per line, the mnemonic in
upper case, then for the five commands that take one a single operand, decimal or `0x` and hexadecimal
digits; `;` starts a comment. A line is a list of characters. What R83 leaves open (blanks, the case of
hexadecimal digits, leading zeros, a line without a command) is in log entry 16. -/

namespace Sys2Proof

/-- The value of one digit, none when it is no digit of the base. -/
def digitValue (base : Nat) (c : Char) : Option Nat :=
  let k := c.toNat
  let d :=
    if 48 ≤ k ∧ k ≤ 57 then some (k - 48)
    else if 65 ≤ k ∧ k ≤ 70 then some (k - 55)
    else if 97 ≤ k ∧ k ≤ 102 then some (k - 87)
    else none
  d.filter (fun v => v < base)

/-- The digits `cs` of a numeral after those whose value is `acc`. -/
def numeralFrom (base : Nat) : Nat → List Char → Option Nat
  | acc, [] => some acc
  | acc, c :: cs =>
    match digitValue base c with
    | none => none
    | some d => numeralFrom base (base * acc + d) cs

/-- A numeral of at least one digit. -/
def numeral (base : Nat) : List Char → Option Nat
  | [] => none
  | c :: cs => numeralFrom base 0 (c :: cs)

/-- An operand: a decimal numeral, or `0x` and hexadecimal digits; its value 0 to 2^32-1 (R83). -/
def asmOperand (cs : List Char) : Option Word :=
  let value :=
    match cs with
    | '0' :: 'x' :: digits => numeral 16 digits
    | _ => numeral 10 cs
  (value.filter (fun v => v < 2 ^ 32)).map (BitVec.ofNat 32)

/-- The words of a line, without its comment and its blanks. -/
def asmTokens (line : List Char) : List (List Char) :=
  ((line.takeWhile (fun c => c != ';')).splitOnP (fun c => c == ' ')).filter (fun t => t != [])

/-- The six mnemonics without an operand (R77, R78). -/
def asmPlain (m : List Char) : Option Instr :=
  if m = ['N', 'O', 'P'] then some .nop
  else if m = ['L', 'C', 'G', '.', 'N', 'E', 'X', 'T'] then some .lcgNext
  else if m = ['L', 'C', 'G', '.', 'R', 'D'] then some .lcgRd
  else if m = ['M', 'T', '.', 'S', 'T', 'A', 'R', 'T'] then some .mtStart
  else if m = ['M', 'T', '.', 'N', 'E', 'X', 'T'] then some .mtNext
  else if m = ['S', 'T', '.', 'C', 'L', 'R'] then some .stClr
  else none

/-- The five mnemonics with an operand `d` (R76, R77). -/
def asmWithOperand (m : List Char) (d : Word) : Option Instr :=
  if m = ['S', 'E', 'E', 'D'] then some (.seed d)
  else if m = ['S', 'Y', 'S', '.', 'R', 'D'] then some (.sysRd d)
  else if m = ['M', 'T', '.', 'R', 'D'] then some (.mtRd d)
  else if m = ['S', 'T', '.', 'P', 'U', 'S', 'H'] then some (.stPush d)
  else if m = ['S', 'T', '.', 'R', 'D'] then some (.stRd d)
  else none

/-- The command a line stands for; none when it is no line of the syntax (R83). -/
def assembleInstr (line : List Char) : Option Instr :=
  match asmTokens line with
  | [m] => asmPlain m
  | [m, o] => (asmOperand o).bind (asmWithOperand m)
  | _ => none

/-- The encoding of a line, `op` above the operand, or above 0 when there is none (R83). -/
def assemble (line : List Char) : Option Cmd := (assembleInstr line).map encode

end Sys2Proof
end

