-- ==== Sys2Proof/Machine/Consumer.lean ====
section
/-! DEFINITION. What a consumer forms from the block's words and counters, in exact integers and
rationals (spec/10_state.md R44, spec/43_stat.md R133 to R141). The block holds none of it. The square
root, the CDF and the p-values are out of scope (spec/00_scope.md R5). -/

namespace Sys2Proof.Machine

/-- The sample value a word stands for, the exact rational `W / 2^32` (R44). -/
def sampleValue (w : Word) : Rat := (w.toNat : Rat) / 2 ^ 32

/-- The word a sample value is recovered as, `floor(value * 2^32)` (R44). -/
def sampleWord (v : Rat) : Int := (v * 2 ^ 32).floor

/-- The document's `total_bit_count`, `32 * N` (R139). -/
def totalBitCount (s : State) : Nat := 32 * s.n.toNat

/-- The monobit sum `S = ONES - ZEROS` with `ZEROS = 32 * N - ONES` (R139), a signed integer. -/
def monobitSum (s : State) : Int := (s.ones.toNat : Int) - ((totalBitCount s : Int) - s.ones.toNat)

/-- The number of one bits of a sample (R26, R133). -/
def onesOf (ws : List Word) : Nat := (ws.map popcount).sum

/-- The number of positions where a word differs from the one before it, `w` standing before the list. -/
def changesFrom : Word → List Word → Nat
  | _, [] => 0
  | w, v :: vs => (if v ≠ w then 1 else 0) + changesFrom v vs

/-- The number of maximal runs of a sample (R134): 0 when it is empty, and otherwise one more than its
changes. -/
def runsOf : List Word → Nat
  | [] => 0
  | w :: ws => 1 + changesFrom w ws

/-- The number of sample values equal to the integer 1 (R136). -/
def onesAsValue (ws : List Word) : Nat := (ws.filter (fun w => sampleValue w == 1)).length

/-- The consumer's condition for the monobit computation, `N >= 1` (R141). -/
def monobitReady (s : State) : Bool := decide (1 ≤ s.n.toNat)

/-- The consumer's condition for the runs computation, `N >= 2` (R141). -/
def runsReady (s : State) : Bool := decide (2 ≤ s.n.toNat)

end Sys2Proof.Machine
end

