-- ==== Sys2Proof/WellFormed.lean ====
section
/-! DEFINITION. Which commands have an operand in its legal range (spec/30_encoding.md R76). It is no
condition on decoding, encoding or execution: a command outside its range decodes like any other and
executes as a RANGE failure (R80, spec/60_exceptions.md R154). -/

namespace Sys2Proof

/-- The operand is one of the values R76 calls legal: a register number 0 to 2 for `SYS.RD` and
`ST.RD`, a word index 0 to 623 for `MT.RD`; any value for `SEED` and `ST.PUSH`. -/
def Instr.wellFormed : Instr → Bool
  | .nop => true
  | .seed _ => true
  | .sysRd r => decide (r.toNat ≤ 2)
  | .lcgNext => true
  | .lcgRd => true
  | .mtStart => true
  | .mtNext => true
  | .mtRd i => decide (i.toNat < Config.mtN)
  | .stClr => true
  | .stPush _ => true
  | .stRd r => decide (r.toNat ≤ 2)

end Sys2Proof
end

