-- ==== Sys2Proof/Safety.lean ====
section
/-! DEFINITION. The terms claims are made in: the invariants of the block, the status a command is due,
a session of commands with its responses, and what it means for two states to look alike to the host. -/

namespace Sys2Proof.Machine

/-! ## Invariants -/

/-- The array is in canonical form (log entry 5). -/
def State.ArrayInv (s : State) : Prop := s.mt.wf

/-- The cursor stays in 0 to 623 (spec/10_state.md R24, R37). -/
def State.IdxInv (s : State) : Prop := s.idx.toNat < 624

/-- The error latch (spec/10_state.md R32): `ERRCODE` is 0 exactly when `ERR = 0`, and is 0 to 4. -/
def State.LatchInv (s : State) : Prop :=
  (s.errcode = 0 ↔ s.err = false) ∧ s.errcode.toNat ≤ 4

/-- The accumulator invariants (spec/10_state.md R36). -/
def State.CountInv (s : State) : Prop :=
  s.n.toNat ≤ Config.stNMax ∧ s.ones.toNat ≤ 32 * s.n.toNat ∧ (s.runs = 0 ↔ s.n = 0) ∧
    (1 ≤ s.n.toNat → 1 ≤ s.runs.toNat ∧ s.runs.toNat ≤ s.n.toNat)

/-- All of them together. -/
structure State.Inv (s : State) : Prop where
  array : s.ArrayInv
  idx : s.IdxInv
  latch : s.LatchInv
  count : s.CountInv

/-! ## What a command is due -/

/-- The commands that read or advance generator state (spec/60_exceptions.md R151, row UNSEEDED). -/
def needsSeed : Instr → Bool
  | .nop => false
  | .seed _ => false
  | .sysRd r => decide (r = 1 ∨ r = 2)
  | .lcgNext => true
  | .lcgRd => true
  | .mtStart => true
  | .mtNext => true
  | .mtRd _ => true
  | .stClr => false
  | .stPush _ => false
  | .stRd _ => false

/-- The commands that count a word, and so can find the accumulator full (R156). -/
def isPush : Instr → Bool
  | .stPush _ => true
  | .nop | .seed _ | .sysRd _ | .lcgNext | .lcgRd | .mtStart | .mtNext | .mtRd _ | .stClr | .stRd _ => false

/-- The status a command word gets, by the fixed order of checks (spec/60_exceptions.md R157): ILLEGAL,
RANGE, UNSEEDED, FULL, and otherwise OK. -/
def statusDue (s : State) : Decoded → Status
  | .illegal _ => .illegal
  | .command i =>
    if i.wellFormed = false then .range
    else if needsSeed i = true ∧ s.seeded = false then .unseeded
    else if isPush i = true ∧ s.n.toNat = Config.stNMax then .full
    else .ok

/-! ## Sessions -/

/-- The host sends the command words `ws` in order and takes every response
(spec/20_memory.md R58): the state after the last, and the responses in order (spec/30_encoding.md R72).
None when a command stops the machine or leaves no response. -/
def session : List Cmd → State → Option (State × List Response)
  | [], s => some (s, [])
  | w :: ws, s =>
    match runCommand w s with
    | .next t =>
      match t.rsp, session ws t with
      | some r, some (u, rs) => some (u, r :: rs)
      | _, _ => none
    | .fault _ => none
    | .refused _ => none

/-- The words of `ws` whose commands do not fail, when `ws` is sent from `s`. -/
def keepSuccessful : List Cmd → State → List Cmd
  | [], _ => []
  | w :: ws, s =>
    match runCommand w s with
    | .next t =>
      if t.rsp.map Response.status = some .ok then w :: keepSuccessful ws t else keepSuccessful ws t
    | .fault _ => []
    | .refused _ => []

/-- The responses to the `LCG.NEXT` commands of a session, in order. -/
def lcgResponses : List Cmd → List Response → List Response
  | w :: ws, r :: rs =>
    if decode w = .command .lcgNext then r :: lcgResponses ws rs else lcgResponses ws rs
  | _, _ => []

/-- The number of `LCG.NEXT` commands among `ws`. -/
def lcgDraws (ws : List Cmd) : Nat := (ws.filter (fun w => decode w == .command .lcgNext)).length

/-- The sample word a command word pushes, if it is an `ST.PUSH`. -/
def pushedWord (w : Cmd) : Option Word :=
  match decode w with
  | .command (.stPush v) => some v
  | _ => none

/-- The cursor after one command word of a seeded block, from the cursor before it: 0 after `MT.START`
(spec/42_mt.md R111), the next one after `MT.NEXT` (R112), and the same after any other but `SEED`. -/
def cursorAfter (c : Nat) (w : Cmd) : Nat :=
  if decode w = .command .mtStart then 0
  else if decode w = .command .mtNext then (c + 1) % 624
  else c

/-- The cursor after the command words `ws`, none of them a `SEED`, counted from the words alone. -/
def cursorCounted (c : Nat) (ws : List Cmd) : Nat := ws.foldl cursorAfter c

/-- The number of twists among the command words `ws`, none of them a `SEED`, counted from the words
alone: one for every `MT.NEXT` that finds the cursor at 0 (spec/42_mt.md R117). -/
def twistsCounted : Nat → List Cmd → Nat
  | _, [] => 0
  | c, w :: ws =>
    (if decode w = .command .mtNext ∧ c = 0 then 1 else 0) + twistsCounted (cursorAfter c w) ws

/-! ## Numerals of the assembler syntax -/

/-- `cs` is a numeral in base `base` (at most 16) of value `v`: one digit or more, most significant
first, a letter digit in either case (spec/30_encoding.md R83; the case and leading zeros: log entry 16). -/
def IsNumeral (base : Nat) (cs : List Char) (v : Nat) : Prop :=
  ∃ ds : List Nat, ds ≠ [] ∧
    List.Forall₂ (fun c k => k < base ∧ (c = Nat.digitChar k ∨ c = (Nat.digitChar k).toUpper)) cs ds ∧
    v = ds.foldl (fun a k => base * a + k) 0

/-- `cs` is an operand of value `v`: a decimal numeral, or `0x` and a hexadecimal one (R83). -/
def IsOperand (cs : List Char) (v : Nat) : Prop :=
  IsNumeral 10 cs v ∨ ∃ hs, cs = '0' :: 'x' :: hs ∧ IsNumeral 16 hs v

/-! ## Separate units and unobservable registers -/

/-- `f` applied to the next state, if there is one. -/
def mapNext (f : State → State) :
    Host.Outcome State Fault Refusal → Host.Outcome State Fault Refusal
  | .next s => .next (f s)
  | .fault r => .fault r
  | .refused r => .refused r

/-- `s` with the generators' state of `g`: `SEED`, `X`, `MT[]`, `IDX`, `SEEDED`. -/
def State.withGenerators (s g : State) : State :=
  { s with seed := g.seed, x := g.x, mt := g.mt, idx := g.idx, seeded := g.seeded }

/-- `s` with the accumulator of `g`: `N`, `ONES`, `RUNS`, `PREV`. -/
def State.withAccumulator (s g : State) : State :=
  { s with n := g.n, ones := g.ones, runs := g.runs, prev := g.prev }

/-- `s` with the MT unit of `g`: `MT[]` and `IDX`. -/
def State.withMtUnit (s g : State) : State := { s with mt := g.mt, idx := g.idx }

/-- `s` with the LCG unit of `g`: `X`. -/
def State.withLcgUnit (s g : State) : State := { s with x := g.x }

/-- Two states that differ at most in registers that hold no value by spec/70_reset_and_hazards.md R182:
the generator state while `SEEDED = 0`, and `PREV` while `N = 0`. -/
structure State.SameVisible (s t : State) : Prop where
  seeded : s.seeded = t.seeded
  err : s.err = t.err
  errcode : s.errcode = t.errcode
  n : s.n = t.n
  ones : s.ones = t.ones
  runs : s.runs = t.runs
  rsp : s.rsp = t.rsp
  host : s.host = t.host
  delivered : s.delivered = t.delivered
  generators : s.seeded = true → s.seed = t.seed ∧ s.x = t.x ∧ s.mt = t.mt ∧ s.idx = t.idx
  prev : s.n ≠ 0 → s.prev = t.prev

/-- Outcomes that look alike: both stop for the same reason, or both go on to states that look alike. -/
def SameOutcome : Host.Outcome State Fault Refusal → Host.Outcome State Fault Refusal → Prop
  | .next s, .next t => s.SameVisible t
  | .fault f, .fault g => f = g
  | .refused f, .refused g => f = g
  | _, _ => False

/-! ## The twist by its words -/

/-- The word a twist step makes from the words it reads (spec/42_mt.md R113): bit 31 of `hi`, bits 30
to 0 of `lo`, and the XOR source `src`. -/
def twistMix (hi lo src : Word) : Word :=
  (src ^^^ (((hi &&& 0x80000000#32) ||| (lo &&& 0x7FFFFFFF#32)) >>> 1)) ^^^
    (if lo.getLsbD 0 then 0x9908B0DF#32 else 0)

end Sys2Proof.Machine
end

