-- ==== Sys2Proof/Certificates/Slice0/Obligations.lean ====
section
/-! DEFINITION. The statements for the provers, from the spec's numbered rules. Each docstring names the
rules of spec/ it formalises; what rests on a log entry says so. A premise on the state is an invariant of
Safety.lean, stated as kept by every step in the section on invariants, or the condition the rule gives. -/

open Sys2Proof Sys2Proof.Machine

/-! ## Encoding -/

/-- R74, R77, R78, R82, R83: decoding a command's encoding gives the command back, with its whole
operand; two commands have different encodings; and a word that decodes to a command has that command's
opcode and, when the command takes an operand, its operand as `data`: no other bit counts. -/
def Obligations.DecodeAndEncodeAgree : Prop :=
  (∀ i : Instr, decode (encode i) = .command i) ∧
  (∀ i j : Instr, encode i = encode j → i = j) ∧
  (∀ (w : Cmd) (i : Instr), decode w = .command i ↔
    opField w = i.opcode ∧ ∀ d, i.operand = some d → dataField w = d)

/-- R79: every opcode that is none of the eleven assigned values decodes to the illegal command whatever
`data` holds, and every assigned one to a command; there are 245 unassigned opcodes. -/
def Obligations.UnassignedOpcodesAreIllegal : Prop :=
  (∀ (op : BitVec 8) (d : Word),
    decode (op ++ d) = .illegal op ↔
      op ∉ [0x00#8, 0x01#8, 0x02#8, 0x10#8, 0x11#8, 0x20#8, 0x21#8, 0x22#8, 0x30#8, 0x31#8, 0x32#8]) ∧
  (∀ w : Cmd, (∃ i, decode w = .command i) ∨ decode w = .illegal (opField w)) ∧
  ((List.range 256).filter (fun k => decide (decode (BitVec.ofNat 8 k ++ (0 : Word)) =
      .illegal (BitVec.ofNat 8 k)))).length = 245

/-- The words of spec/95_test_vectors.md P1 to P4 decode to the commands they stand for, one of each
command and one unassigned. -/
def Obligations.PrintedWordsDecode : Prop :=
  decode 0x00FFFFFFFF#40 = .command .nop ∧
  decode 0x010000002A#40 = .command (.seed 42) ∧
  decode 0x0200000001#40 = .command (.sysRd 1) ∧
  decode 0x10DEADBEEF#40 = .command .lcgNext ∧
  decode 0x1100000000#40 = .command .lcgRd ∧
  decode 0x2000000000#40 = .command .mtStart ∧
  decode 0x2100000000#40 = .command .mtNext ∧
  decode 0x220000026F#40 = .command (.mtRd 623) ∧
  decode 0x3000000000#40 = .command .stClr ∧
  decode 0x310000FFFF#40 = .command (.stPush 0xFFFF) ∧
  decode 0x3200000003#40 = .command (.stRd 3) ∧
  decode 0x7F00000005#40 = .illegal 0x7F

/-- R83 (with log entry 16 for blanks, the case of hexadecimal digits and leading zeros): a line that is
one of the five mnemonics with an operand, decimal or `0x` and hexadecimal digits, stands for that command
with that operand, and for none when the operand is above 2^32-1; every number has both spellings; each of
the six other mnemonics is a line for its command; a comment changes nothing; and the encoding of a line is
the opcode above the operand, or above 0 when there is none. -/
def Obligations.AssemblerReadsItsSyntax : Prop :=
  (∀ (d : Word) (cs : List Char), IsOperand cs d.toNat →
    assembleInstr (['S', 'E', 'E', 'D', ' '] ++ cs) = some (.seed d) ∧
    assembleInstr (['S', 'Y', 'S', '.', 'R', 'D', ' '] ++ cs) = some (.sysRd d) ∧
    assembleInstr (['M', 'T', '.', 'R', 'D', ' '] ++ cs) = some (.mtRd d) ∧
    assembleInstr (['S', 'T', '.', 'P', 'U', 'S', 'H', ' '] ++ cs) = some (.stPush d) ∧
    assembleInstr (['S', 'T', '.', 'R', 'D', ' '] ++ cs) = some (.stRd d)) ∧
  (∀ (v : Nat) (cs : List Char), IsOperand cs v → 2 ^ 32 ≤ v →
    assembleInstr (['S', 'E', 'E', 'D', ' '] ++ cs) = none ∧
    assembleInstr (['S', 'Y', 'S', '.', 'R', 'D', ' '] ++ cs) = none ∧
    assembleInstr (['M', 'T', '.', 'R', 'D', ' '] ++ cs) = none ∧
    assembleInstr (['S', 'T', '.', 'P', 'U', 'S', 'H', ' '] ++ cs) = none ∧
    assembleInstr (['S', 'T', '.', 'R', 'D', ' '] ++ cs) = none) ∧
  (∀ v : Nat, IsOperand (Nat.toDigits 10 v) v ∧ IsOperand ('0' :: 'x' :: Nat.toDigits 16 v) v) ∧
  assembleInstr ['N', 'O', 'P'] = some .nop ∧
  assembleInstr ['L', 'C', 'G', '.', 'N', 'E', 'X', 'T'] = some .lcgNext ∧
  assembleInstr ['L', 'C', 'G', '.', 'R', 'D'] = some .lcgRd ∧
  assembleInstr ['M', 'T', '.', 'S', 'T', 'A', 'R', 'T'] = some .mtStart ∧
  assembleInstr ['M', 'T', '.', 'N', 'E', 'X', 'T'] = some .mtNext ∧
  assembleInstr ['S', 'T', '.', 'C', 'L', 'R'] = some .stClr ∧
  (∀ line comment : List Char, assembleInstr (line ++ ';' :: comment) = assembleInstr line) ∧
  (∀ (line : List Char) (w : Cmd), assemble line = some w ↔
    ∃ i, assembleInstr line = some i ∧ w = i.opcode ++ i.operand.getD 0) ∧
  (∀ (line : List Char) (w : Cmd), assemble line = some w →
    ∃ i, assembleInstr line = some i ∧ decode w = .command i)

/-! ## Steps and the command port -/

/-- R57, R82 with log entry 2: when the host's next act is a command word, a step first transfers the
response on offer, if any, and then is `exec` of the decoded command; an illegal word fails with ILLEGAL. -/
def Obligations.StepRunsTheDecodedCommand : Prop :=
  ∀ (s : State) (w : Cmd) (rest : List HostAct), s.host = .command w :: rest →
    (∀ i, decode w = .command i →
      step s = exec i { s with host := rest, rsp := none, delivered := s.delivered ++ s.rsp.toList }) ∧
    (∀ op, decode w = .illegal op →
      step s = .next (({ s with host := rest, rsp := none,
                                delivered := s.delivered ++ s.rsp.toList } : State).fail .illegal))

/-- R165 and R70 with log entries 2 and 3: without an act of the host the block keeps all state; an
accepted response is transferred once and nothing else changes. -/
def Obligations.StepIdleAndStepAccept : Prop :=
  (∀ s : State, s.host = [] → step s = .next s) ∧
  (∀ (s : State) (rest : List HostAct), s.host = .accept :: rest →
    step s = .next { s with host := rest, rsp := none, delivered := s.delivered ++ s.rsp.toList })

/-- R181: after reset the six fields the rule gives a value have it, from every state and right after
power-on; and no other step clears `SEEDED`, `ERR` or `ERRCODE`. The registers the rule leaves unspecified
are not mentioned. -/
def Obligations.ResetEffectAndOnlyResetClears : Prop :=
  (∀ r : State, (r = State.reset ∨ ∃ s rest, s.host = .reset :: rest ∧ step s = .next r) →
    r.seeded = false ∧ r.err = false ∧ r.errcode = 0 ∧ r.n = 0 ∧ r.ones = 0 ∧ r.runs = 0) ∧
  (∀ (s : State) (rest : List HostAct), s.host = .reset :: rest → ∃ r, step s = .next r) ∧
  (∀ s t : State, step s = .next t → (∀ rest, s.host ≠ .reset :: rest) →
    (s.seeded = true → t.seeded = true) ∧
    (s.err = true → t.err = true ∧ t.errcode = s.errcode))

/-- R183 and R180 (log entry 11): a reset offers no response, and a command whose response was not yet
transferred gets none; what was transferred before stays transferred. -/
def Obligations.ResetAbandonsTheResponse : Prop :=
  ∀ (s : State) (rest : List HostAct), s.host = .reset :: rest →
    ∃ t, step s = .next t ∧ t.rsp = none ∧ t.delivered = s.delivered ∧ t.host = rest

/-- R72: a step on a command word leaves exactly one response on offer, that command's. That the response
before it joins `delivered` within this same step is the model's choice (log entry 2). -/
def Obligations.EveryCommandGetsOneResponse : Prop :=
  ∀ (s : State) (w : Cmd) (rest : List HostAct), s.IdxInv → s.host = .command w :: rest →
    ∃ t r, step s = .next t ∧ t.rsp = some r ∧ t.delivered = s.delivered ++ s.rsp.toList ∧ t.host = rest

/-- R71, R70 (channel: log entry 2): once a command word has been accepted `cmd_ready` is low and
`rsp_valid` high; once the response has been accepted it is the other way round. A reset leaves the port
ready with no response on offer: R180 and R183, with `rst` asserted and released as one act, which is the
model's choice (log entry 11). -/
def Obligations.PortIsHeldUntilTheResponse : Prop :=
  (∀ (s : State) (w : Cmd) (rest : List HostAct), s.IdxInv → s.host = .command w :: rest →
    ∃ t, step s = .next t ∧ t.cmdReady = false ∧ t.rspValid = true) ∧
  (∀ (s : State) (rest : List HostAct), s.host = .accept :: rest ∨ s.host = .reset :: rest →
    ∃ t, step s = .next t ∧ t.cmdReady = true ∧ t.rspValid = false)

/-- R75, R151: the response of every command word has its status code, never above 4, in bits 35:32 and
its data in bits 31:0; the data is 0 when the command fails and when it returns nothing. -/
def Obligations.ResponsesAreWellFormed : Prop :=
  ∀ (w : Cmd) (s t : State), runCommand w s = .next t →
    ∃ r, t.rsp = some r ∧
      r.bits.extractLsb' 32 4 = r.status.code ∧ (r.bits.extractLsb' 32 4).toNat ≤ 4 ∧
      r.bits.extractLsb' 0 32 = r.data ∧
      (r.status ≠ .ok → r.data = 0) ∧
      (∀ i, decode w = .command i →
        (i = .nop ∨ (∃ v, i = .seed v) ∨ i = .mtStart ∨ i = .stClr ∨ (∃ v, i = .stPush v)) → r.data = 0)

/-- R58, R72: for a list of command words whose session answers, the machine run on the host's commands
is the session: after the `n` command words and the acceptance of the last response it is in the session's
state, and the responses have been transferred in order, the k-th for the k-th command. The host's acts as
a list in the state (log entry 1), and the transfer of a response within the next act's step, so `n + 1`
steps, with the record `delivered` (log entry 2), are the model's choices. -/
def Obligations.RunDeliversTheSession : Prop :=
  ∀ (ws : List Cmd) (s u : State) (rs : List Response), s.rsp = none →
    session ws s = some (u, rs) →
    Sys2Proof.core.run (ws.length + 1) { s with host := ws.map HostAct.command ++ [.accept] } =
      .next { u with rsp := none, host := [], delivered := s.delivered ++ rs }

/-- R193: from every state with the cursor in range a step answers a next state, the cursor still in
range, so no number of steps stops the machine: no command hangs it. -/
def Obligations.TheMachineNeverStops : Prop :=
  ∀ (k : Nat) (s : State), s.IdxInv → ∃ t, Sys2Proof.core.run k s = .next t ∧ t.IdxInv

/-- Log entry 7 (R50, R24): the only stop of any command is `MT.NEXT` on a seeded block whose cursor is
624 or more, which no run reaches; nothing is refused. -/
def Obligations.OnlyStopIsCursorOutOfRange : Prop :=
  (∀ (i : Instr) (s : State) (f : Fault), exec i s = .fault f ↔
    i = .mtNext ∧ s.seeded = true ∧ 624 ≤ s.idx.toNat ∧ f = .mtIndexOutOfRange) ∧
  (∀ (i : Instr) (s : State) (r : Refusal), exec i s ≠ .refused r)

/-! ## Failures -/

/-- R152: `fail(code)` latches the first code, responds `(code, 0)` and changes nothing else. -/
def Obligations.FailLatchesTheFirstCode : Prop :=
  ∀ (s : State) (c : Status), c ≠ .ok →
    (s.err = false →
      s.fail c = { s with err := true, errcode := c.code, rsp := some ⟨c, 0⟩ }) ∧
    (s.err = true → s.fail c = { s with rsp := some ⟨c, 0⟩ }) ∧
    1 ≤ c.code.toNat ∧ c.code.toNat ≤ 4

/-- R151, R153 to R157: the status of every command word's response, by the fixed order of checks
ILLEGAL, RANGE, UNSEEDED, FULL. -/
def Obligations.StatusByOrderOfChecks : Prop :=
  ∀ (w : Cmd) (s : State), s.IdxInv →
    ∃ t d, runCommand w s = .next t ∧ t.rsp = some ⟨statusDue s (decode w), d⟩

/-- R153: a command word with an unassigned opcode fails with ILLEGAL: the latch, the response
`(1, 0)`, and nothing else, whatever `data` holds. -/
def Obligations.IllegalOpcodeFails : Prop :=
  ∀ (op : BitVec 8) (d : Word) (s : State),
    op ∉ [0x00#8, 0x01#8, 0x02#8, 0x10#8, 0x11#8, 0x20#8, 0x21#8, 0x22#8, 0x30#8, 0x31#8, 0x32#8] →
    runCommand (op ++ d) s =
      .next { s with err := true, errcode := if s.err then s.errcode else 1, rsp := some ⟨.illegal, 0⟩ }

/-- R154, R80: exactly the commands whose operand is out of its legal range fail with RANGE, seeded or
not. -/
def Obligations.RangeFailsExactlyOutOfRange : Prop :=
  ∀ i : Instr, i.wellFormed = false ↔ ∀ s : State, exec i s = .next (s.fail .range)

/-- R158: a failing command leaves all but the latch; a successful one leaves the latch; and the state
after a sequence of command words is that after the sequence without the failing ones, except for `ERR`
and `ERRCODE` (and the response on offer, which is no register). -/
def Obligations.FailingCommandsLeaveNoTrace : Prop :=
  (∀ (w : Cmd) (s t : State) (c : Status) (d : Word), runCommand w s = .next t → t.rsp = some ⟨c, d⟩ →
    (c ≠ .ok → t = { s with err := t.err, errcode := t.errcode, rsp := some ⟨c, 0⟩ }) ∧
    (c = .ok → t.err = s.err ∧ t.errcode = s.errcode)) ∧
  (∀ (ws : List Cmd) (s u : State) (rs : List Response), session ws s = some (u, rs) →
    ∃ v rs', session (keepSuccessful ws s) s = some (v, rs') ∧
      { v with rsp := u.rsp } = { u with err := s.err, errcode := s.errcode })

/-! ## Frames -/

/-- R20's table (10_state.md), R94, R52: what each command leaves. A register changes only under the
commands the table names, each word of the array only under `SEED` and a draw with `IDX = 0`, `ERR` and
`ERRCODE` only when the command fails; the host's acts and the delivered responses are never touched. -/
def Obligations.FrameOfEveryCommand : Prop :=
  ∀ (i : Instr) (s t : State), exec i s = .next t →
    ((∀ v, i ≠ .seed v) → t.seed = s.seed ∧ t.seeded = s.seeded) ∧
    ((∀ v, i ≠ .seed v) → i ≠ .lcgNext → t.x = s.x) ∧
    ((∀ v, i ≠ .seed v) → i ≠ .mtStart → i ≠ .mtNext → t.idx = s.idx) ∧
    ((∀ v, i ≠ .seed v) → (i ≠ .mtNext ∨ s.idx ≠ 0) → ∀ a, t.mt.read a = s.mt.read a) ∧
    (s.ArrayInv → ∀ a, 624 ≤ a → t.mt.read a = s.mt.read a) ∧
    (i ≠ .stClr → (∀ w, i ≠ .stPush w) → t.n = s.n ∧ t.ones = s.ones ∧ t.runs = s.runs) ∧
    ((∀ w, i ≠ .stPush w) → t.prev = s.prev) ∧
    ((∀ d, t.rsp = some ⟨.ok, d⟩ → t.err = s.err ∧ t.errcode = s.errcode)) ∧
    t.host = s.host ∧ t.delivered = s.delivered

/-- R55: a read command that succeeds changes no state (its response apart), and repeating it returns
the same value. -/
def Obligations.ReadsHaveNoSideEffect : Prop :=
  ∀ (i : Instr) (s t : State) (d : Word),
    (i = .lcgRd ∨ (∃ r, i = .sysRd r) ∨ (∃ k, i = .mtRd k) ∨ (∃ r, i = .stRd r)) →
    exec i s = .next t → t.rsp = some ⟨.ok, d⟩ →
    t = { s with rsp := some ⟨.ok, d⟩ } ∧ exec i t = .next t

/-- R94, R138: ST commands neither read nor write the generators' state (`SEEDED` among it); the other
commands not the accumulator; LCG commands not `MT[]` and `IDX`; MT commands not `X`. Replacing that state
before the command gives the same outcome with it replaced after. Nothing more is claimed: `SEED` writes
`X`, `MT[]` and `IDX` (R91), `SYS.RD 2` reads `IDX` (R92), and the LCG and MT commands read `SEEDED`
(R155). -/
def Obligations.StLcgMtCommandsIgnoreEachOthersState : Prop :=
  (∀ (i : Instr) (s g : State), i = .stClr ∨ (∃ w, i = .stPush w) ∨ (∃ r, i = .stRd r) →
    exec i (s.withGenerators g) = mapNext (·.withGenerators g) (exec i s)) ∧
  (∀ (i : Instr) (s g : State), i ≠ .stClr → (∀ w, i ≠ .stPush w) → (∀ r, i ≠ .stRd r) →
    exec i (s.withAccumulator g) = mapNext (·.withAccumulator g) (exec i s)) ∧
  (∀ (i : Instr) (s g : State), i = .lcgNext ∨ i = .lcgRd →
    exec i (s.withMtUnit g) = mapNext (·.withMtUnit g) (exec i s)) ∧
  (∀ (i : Instr) (s g : State), i = .mtStart ∨ i = .mtNext ∨ (∃ k, i = .mtRd k) →
    exec i (s.withLcgUnit g) = mapNext (·.withLcgUnit g) (exec i s))

/-! ## Invariants -/

/-- The state after reset meets every invariant, whatever the host then does (log entries 4 and 5 give
the values the spec leaves open). -/
def Obligations.ResetMeetsTheInvariants : Prop :=
  ∀ acts : List HostAct, ({ State.reset with host := acts } : State).Inv

/-- R52, R50 with log entry 5: every step keeps the array in canonical form, inside 0 to 623. -/
def Obligations.StepKeepsTheArrayCanonical : Prop :=
  ∀ s t : State, s.ArrayInv → step s = .next t → t.ArrayInv

/-- R24, R37: every step keeps the cursor in 0 to 623. -/
def Obligations.StepKeepsTheCursorInRange : Prop :=
  ∀ s t : State, s.IdxInv → step s = .next t → t.IdxInv

/-- R32: `ERRCODE` is 0 exactly when `ERR = 0` and at most 4, kept by every step; it is written when
`ERR` goes from 0 to 1, with the code of the command that failed then, and holds until a reset. -/
def Obligations.StepKeepsTheLatch : Prop :=
  (∀ s t : State, s.LatchInv → step s = .next t → t.LatchInv) ∧
  (∀ s t : State, step s = .next t → s.err = false → t.err = true →
    ∃ c, c ≠ .ok ∧ t.rsp = some ⟨c, 0⟩ ∧ t.errcode = c.code) ∧
  (∀ s t : State, step s = .next t → (∀ rest, s.host ≠ .reset :: rest) → s.err = true →
    t.err = true ∧ t.errcode = s.errcode)

/-- R36: the accumulator invariants hold after reset, whatever the host does, and every step keeps
them, so they hold in every reachable state. -/
def Obligations.CountersStayConsistent : Prop :=
  (∀ acts : List HostAct, ({ State.reset with host := acts } : State).CountInv) ∧
  (∀ s t : State, s.CountInv → step s = .next t → t.CountInv)

/-- R117, R52, R103, R91: what a step does to `SEED`, `X` and `MT[]`: under `SEED` they are the seeded
ones; on a seeded block `LCG.NEXT` steps `X` once and `MT.NEXT` with `IDX = 0` twists the array once; and
every other act but a reset (after which R182 leaves the three unspecified) keeps all three: no act, an
acceptance, an illegal word, a failing command, and every other command. -/
def Obligations.StepKeepsTheStreams : Prop :=
  ∀ s t : State, step s = .next t →
    (∀ w rest v, s.host = .command w :: rest → decode w = .command (.seed v) →
      t.seed = v ∧ t.x = v ∧ t.mt = mtSeed v) ∧
    (∀ w rest, s.host = .command w :: rest → decode w = .command .lcgNext → s.seeded = true →
      t.x = lcgStep s.x ∧ t.seed = s.seed ∧ t.mt = s.mt) ∧
    (∀ w rest, s.host = .command w :: rest → decode w = .command .mtNext → s.seeded = true →
      t.mt = (if s.idx = 0 then twist s.mt else s.mt) ∧ t.seed = s.seed ∧ t.x = s.x) ∧
    (s.host = [] ∨ (∃ rest, s.host = .accept :: rest) ∨
        (∃ w rest, s.host = .command w :: rest ∧ (∀ v, decode w ≠ .command (.seed v)) ∧
          (s.seeded = false ∨ (decode w ≠ .command .lcgNext ∧ decode w ≠ .command .mtNext))) →
      t.seed = s.seed ∧ t.x = s.x ∧ t.mt = s.mt)

/-- R182: states that differ only in registers that hold no value (generator state while unseeded,
`PREV` while `N = 0`) stay alike under any number of steps, so no response depends on a value the model
named for reset (log entries 4 and 5). -/
def Obligations.UnspecifiedRegistersAreUnobservable : Prop :=
  ∀ (k : Nat) (s t : State), s.SameVisible t →
    SameOutcome (Sys2Proof.core.run k s) (Sys2Proof.core.run k t)

/-! ## System commands -/

/-- R90: `NOP` responds (OK, 0) from every state and does nothing else. -/
def Obligations.NopRespondsOk : Prop :=
  (∀ d : Word, decode (0x00#8 ++ d) = .command .nop) ∧
  ∀ s : State, exec .nop s = .next { s with rsp := some ⟨.ok, 0⟩ }

/-- R91: `SEED v` succeeds from every state: `SEED`, `X`, the array by the seeding recurrence, `IDX` 0,
`SEEDED` 1, and nothing else. -/
def Obligations.SeedInitializesGenerators : Prop :=
  (∀ v : Word, decode (0x01#8 ++ v) = .command (.seed v)) ∧
  ∀ (v : Word) (s : State), ∃ m : Memory,
    exec (.seed v) s =
      .next { s with seed := v, x := v, mt := m, idx := 0, seeded := true, rsp := some ⟨.ok, 0⟩ } ∧
    m.wf ∧ m.read 0 = v ∧
    ∀ i, 1 ≤ i → i ≤ 623 →
      (m.read i).toNat =
        (1812433253 * (m.read (i - 1) ^^^ (m.read (i - 1) >>> 30)).toNat + i) % 2 ^ 32

/-- R93: what `SEED v` leaves in the registers it writes does not depend on anything before. -/
def Obligations.ReseedingForgets : Prop :=
  ∀ (v : Word) (s s' : State), ∃ t t', exec (.seed v) s = .next t ∧ exec (.seed v) s' = .next t' ∧
    t.seed = t'.seed ∧ t.x = t'.x ∧ t.mt = t'.mt ∧ t.idx = t'.idx ∧ t.seeded = t'.seeded

/-- R92, R33, R29: `SYS.RD r`, by its clauses: RANGE from 3 on; UNSEEDED for 1 and 2 on an unseeded
block; the status word bit by bit; the seed; the cursor zero-extended. -/
def Obligations.SysRdReadsRegisters : Prop :=
  (∀ r : Word, decode (0x02#8 ++ r) = .command (.sysRd r)) ∧
  ∀ (r : Word) (s : State),
    (2 < r.toNat → exec (.sysRd r) s = .next (s.fail .range)) ∧
    ((r = 1 ∨ r = 2) → s.seeded = false → exec (.sysRd r) s = .next (s.fail .unseeded)) ∧
    (r = 0 → ∃ d : Word, exec (.sysRd r) s = .next { s with rsp := some ⟨.ok, d⟩ } ∧
      d.getLsbD 0 = s.seeded ∧ d.getLsbD 1 = s.err ∧
      (∀ k, k < 4 → d.getLsbD (4 + k) = s.errcode.getLsbD k) ∧
      d.getLsbD 2 = false ∧ d.getLsbD 3 = false ∧ (∀ k, 8 ≤ k → d.getLsbD k = false)) ∧
    (r = 1 → s.seeded = true → exec (.sysRd r) s = .next { s with rsp := some ⟨.ok, s.seed⟩ }) ∧
    (r = 2 → s.seeded = true → ∃ d : Word, d.toNat = s.idx.toNat ∧
      exec (.sysRd r) s = .next { s with rsp := some ⟨.ok, d⟩ })

/-! ## LCG unit -/

/-- R100: `LCG.NEXT` fails UNSEEDED on an unseeded block; else `X` becomes the low 32 bits of
`1664525 * X + 1013904221`, which is the response, and nothing else changes. -/
def Obligations.LcgNextStepsX : Prop :=
  (∀ d : Word, decode (0x10#8 ++ d) = .command .lcgNext) ∧
  (∀ s : State, s.seeded = false → exec .lcgNext s = .next (s.fail .unseeded)) ∧
  (∀ s : State, s.seeded = true → ∃ v : Word,
    v.toNat = (1664525 * s.x.toNat + 1013904221) % 2 ^ 32 ∧
    exec .lcgNext s = .next { s with x := v, rsp := some ⟨.ok, v⟩ })

/-- R102: the forms of the step that give the same 32 bits: the full product, below 2^53, reduced at the
end; a 32-bit multiply and a 32-bit add with the carry dropped; reduction in between. -/
def Obligations.LcgArithmeticFormsAgree : Prop :=
  ∀ x : Word,
    1664525 * x.toNat < 2 ^ 53 ∧
    lcgStep x = 1664525#32 * x + 1013904221#32 ∧
    (lcgStep x).toNat = ((1664525 * x.toNat) % 2 ^ 32 + 1013904221) % 2 ^ 32 ∧
    (∀ k : Nat, (lcgStep x).toNat = (1664525 * (x.toNat + k * 2 ^ 32) + 1013904221) % 2 ^ 32)

/-- R101: `LCG.RD` fails UNSEEDED on an unseeded block, else responds with `X` and changes nothing. -/
def Obligations.LcgRdReadsX : Prop :=
  (∀ d : Word, decode (0x11#8 ++ d) = .command .lcgRd) ∧
  (∀ s : State, s.seeded = false → exec .lcgRd s = .next (s.fail .unseeded)) ∧
  (∀ s : State, s.seeded = true → exec .lcgRd s = .next { s with rsp := some ⟨.ok, s.x⟩ })

/-- R104: the LCG step is a bijection on words: every word is the response of `LCG.NEXT` for exactly one
value of `X`. -/
def Obligations.LcgStepIsBijective : Prop :=
  ∀ w : Word, ∃! x : Word, ∀ s : State, s.seeded = true → s.x = x →
    ∃ t, exec .lcgNext s = .next t ∧ t.rsp = some ⟨.ok, w⟩

/-- R103: in any session without `SEED`, whatever comes between them, the responses to the `LCG.NEXT`
commands are the successive steps from `X`. -/
def Obligations.LcgSequenceContinues : Prop :=
  ∀ (ws : List Cmd) (s : State), s.seeded = true → s.IdxInv →
    (∀ w ∈ ws, ∀ v, decode w ≠ .command (.seed v)) →
    ∃ u rs, session ws s = some (u, rs) ∧
      lcgResponses ws rs = (List.range (lcgDraws ws)).map (fun k => ⟨.ok, lcgStep^[k + 1] s.x⟩) ∧
      u.x = lcgStep^[lcgDraws ws] s.x

/-- R84: `LCG.GEN n` gives the next `n` words, and `LCG.GEN n` followed by `LCG.GEN m` gives the words
of `LCG.GEN (n + m)`; `LCG.GEN 0` is no command. -/
def Obligations.LcgGenConcatenates : Prop :=
  lcgGen 0 = [] ∧
  ∀ (n m : Nat) (s : State), s.seeded = true →
    ∃ u v rs rs', session ((lcgGen n).map encode) s = some (u, rs) ∧
      session ((lcgGen m).map encode) u = some (v, rs') ∧
      session ((lcgGen (n + m)).map encode) s = some (v, rs ++ rs') ∧
      rs = (List.range n).map (fun k => ⟨.ok, lcgStep^[k + 1] s.x⟩)

/-! ## MT unit -/

/-- R111: `MT.START` fails UNSEEDED on an unseeded block, else sets the cursor to 0 and nothing else:
no twist. -/
def Obligations.MtStartZeroesTheCursor : Prop :=
  (∀ d : Word, decode (0x20#8 ++ d) = .command .mtStart) ∧
  (∀ s : State, s.seeded = false → exec .mtStart s = .next (s.fail .unseeded)) ∧
  (∀ s : State, s.seeded = true →
    exec .mtStart s = .next { s with idx := 0, rsp := some ⟨.ok, 0⟩ })

/-- R112: `MT.NEXT` fails UNSEEDED on an unseeded block; else it twists first when `IDX` is 0, responds
with the tempered word at the old cursor, keeps the untempered word, and advances the cursor with the wrap
at 623. -/
def Obligations.MtNextDraws : Prop :=
  (∀ d : Word, decode (0x21#8 ++ d) = .command .mtNext) ∧
  (∀ s : State, s.seeded = false → exec .mtNext s = .next (s.fail .unseeded)) ∧
  (∀ s : State, s.seeded = true → s.IdxInv → ∃ (m : Memory) (i : BitVec 10),
    exec .mtNext s =
      .next { s with mt := m, idx := i, rsp := some ⟨.ok, temper (m.read s.idx.toNat)⟩ } ∧
    m = (if s.idx.toNat = 0 then twist s.mt else s.mt) ∧
    i.toNat = (if s.idx.toNat = 623 then 0 else s.idx.toNat + 1))

/-- R113, R116, R118: the twist, by which reads see new words: step `i` mixes the old word `i`, the old
word `i+1` (the new word 0 for `i = 623`), and the old word `i+397` up to `i = 226`, the new word `i-227`
from `i = 227` on. -/
def Obligations.TwistReadsOldAndNewWords : Prop :=
  ∀ m : Memory, m.wf →
    (twist m).wf ∧
    (∀ i, i ≤ 226 →
      (twist m).read i = twistMix (m.read i) (m.read (i + 1)) (m.read (i + 397))) ∧
    (∀ i, 227 ≤ i → i ≤ 622 →
      (twist m).read i = twistMix (m.read i) (m.read (i + 1)) ((twist m).read (i - 227))) ∧
    (twist m).read 623 = twistMix (m.read 623) ((twist m).read 0) ((twist m).read 396)

/-- R118: the word a twist step writes is the one formed with `+`, as the document has it; and the two
addends have no bit in common, so their sum is their OR, without a carry out of 32 bits. -/
def Obligations.TwistSumIsOr : Prop :=
  (∀ (m : Memory) (i : Nat), twistWord m i =
    (let y := (m.read i &&& 0x80000000#32) + (m.read ((i + 1) % 624) &&& 0x7FFFFFFF#32)
     let v := m.read ((i + 397) % 624) ^^^ (y >>> 1)
     if y.getLsbD 0 then v ^^^ 0x9908B0DF#32 else v)) ∧
  ∀ a b : Word,
    (a &&& 0x80000000#32) &&& (b &&& 0x7FFFFFFF#32) = 0 ∧
    (a &&& 0x80000000#32) + (b &&& 0x7FFFFFFF#32) = (a &&& 0x80000000#32) ||| (b &&& 0x7FFFFFFF#32) ∧
    (a &&& 0x80000000#32).toNat + (b &&& 0x7FFFFFFF#32).toNat < 2 ^ 32

/-- R114 by its four lines on numbers (a right shift divides, a left shift multiplies and keeps 32 bits,
R12), each using the result of the line before. With U11 (general knowledge, by the spec's own mark)
tempering is a bijection on words, and it is linear: each line is an XOR of shifted and masked bits. -/
def Obligations.TemperIsBijective : Prop :=
  (∀ y : Word, ∃ y1 y2 y3 y4 : Nat,
    y1 = y.toNat ^^^ (y.toNat / 2 ^ 11) ∧
    y2 = y1 ^^^ ((y1 * 2 ^ 7) % 2 ^ 32 &&& 0x9D2C5680) ∧
    y3 = y2 ^^^ ((y2 * 2 ^ 15) % 2 ^ 32 &&& 0xEFC60000) ∧
    y4 = y3 ^^^ (y3 / 2 ^ 18) ∧
    (temper y).toNat = y4) ∧
  Function.Bijective temper ∧ ∀ a b : Word, temper (a ^^^ b) = temper a ^^^ temper b

/-- R115: `MT.RD i` fails RANGE from index 624 on, seeded or not; then UNSEEDED on an unseeded block;
else responds with the untempered word and changes nothing. -/
def Obligations.MtRdReadsAWord : Prop :=
  (∀ i : Word, decode (0x22#8 ++ i) = .command (.mtRd i)) ∧
  ∀ (i : Word) (s : State),
    (624 ≤ i.toNat → exec (.mtRd i) s = .next (s.fail .range)) ∧
    (i.toNat < 624 → s.seeded = false → exec (.mtRd i) s = .next (s.fail .unseeded)) ∧
    (i.toNat < 624 → s.seeded = true →
      exec (.mtRd i) s = .next { s with rsp := some ⟨.ok, s.mt.read i.toNat⟩ })

/-- R85, R112, R117, R119: a generation call of `n` draws responds with the words of successive twists
of the array it found, twists once for every 624 words begun, and leaves the cursor at `n mod 624`; with
`n = 0` nothing is twisted. -/
def Obligations.MtGenDrawsFromSuccessiveTwists : Prop :=
  ∀ (n : Nat) (s : State), s.seeded = true →
    ∃ u, session ((mtGen n).map encode) s =
        some (u, ⟨.ok, 0⟩ ::
          (List.range n).map
            (fun k => ⟨.ok, temper ((twist^[k / 624 + 1] s.mt).read (k % 624))⟩)) ∧
      u.mt = twist^[(n + 623) / 624] s.mt ∧ u.idx.toNat = n % 624 ∧ u.x = s.x

/-! ## ST unit -/

/-- R130: `ST.CLR` succeeds from every state, clears the three counters and leaves everything else, the
error latch and `PREV` among it. -/
def Obligations.StClrClearsCounters : Prop :=
  (∀ d : Word, decode (0x30#8 ++ d) = .command .stClr) ∧
  ∀ s : State, exec .stClr s = .next { s with n := 0, ones := 0, runs := 0, rsp := some ⟨.ok, 0⟩ }

/-- R131, R137: `ST.PUSH w` fails FULL at capacity and counts nothing; else it adds the one bits of `w`,
counts a run when the sample was empty or `w` differs from the old `PREV`, and then updates `PREV` and
`N`. With the accumulator invariants (R36) no addition wraps. -/
def Obligations.StPushCountsAWord : Prop :=
  (∀ w : Word, decode (0x31#8 ++ w) = .command (.stPush w)) ∧
  ∀ (w : Word) (s : State),
    (s.n.toNat = 2 ^ 27 - 1 → exec (.stPush w) s = .next (s.fail .full)) ∧
    (s.n.toNat ≠ 2 ^ 27 - 1 → s.CountInv → ∃ n' ones' runs' : Word,
      exec (.stPush w) s =
        .next { s with n := n', ones := ones', runs := runs', prev := w, rsp := some ⟨.ok, 0⟩ } ∧
      n'.toNat = s.n.toNat + 1 ∧
      ones'.toNat = s.ones.toNat + popcount w ∧
      runs'.toNat = (if s.n = 0 ∨ w ≠ s.prev then s.runs.toNat + 1 else s.runs.toNat))

/-- R131 with log entry 8: away from capacity `ST.PUSH w` succeeds and changes the four accumulator
registers alone, in every state. In the states no run reaches, R36 failing there (`N` above `ST_NMAX`, or a
counter about to wrap), that the push goes on counting modulo 2^32 is the model's choice, not R131's
words. -/
def Obligations.StPushCompletesEverywhere : Prop :=
  ∀ (w : Word) (s : State), s.n.toNat ≠ 2 ^ 27 - 1 →
    exec (.stPush w) s =
      .next { s with n := s.n + 1, ones := s.ones + BitVec.ofNat 32 (popcount w),
                     runs := (if s.n = 0 ∨ w ≠ s.prev then s.runs + 1 else s.runs),
                     prev := w, rsp := some ⟨.ok, 0⟩ }

/-- R132: `ST.RD r` fails RANGE from 3 on, else responds with `N`, `ONES` or `RUNS` and changes nothing,
seeded or not. -/
def Obligations.StRdReadsCounters : Prop :=
  (∀ r : Word, decode (0x32#8 ++ r) = .command (.stRd r)) ∧
  ∀ (r : Word) (s : State),
    (2 < r.toNat → exec (.stRd r) s = .next (s.fail .range)) ∧
    (r = 0 → exec (.stRd r) s = .next { s with rsp := some ⟨.ok, s.n⟩ }) ∧
    (r = 1 → exec (.stRd r) s = .next { s with rsp := some ⟨.ok, s.ones⟩ }) ∧
    (r = 2 → exec (.stRd r) s = .next { s with rsp := some ⟨.ok, s.runs⟩ })

/-- R133: `popcount` is the number of one bits, 0 to 32; a word and its complement have 32 between
them. -/
def Obligations.PopcountCountsOneBits : Prop :=
  ∀ w : Word,
    popcount w = (Finset.univ.filter (fun i : Fin 32 => w.getLsbD i.val = true)).card ∧
    popcount w ≤ 32 ∧ popcount w + popcount (~~~w) = 32

/-- R134, R138, R25, R26, R27: after any session without `ST.CLR` from an empty accumulator, whatever
other commands come between the pushes, `N` is the number of words pushed, `ONES` their one bits and
`RUNS` their maximal runs. -/
def Obligations.CountersOfASample : Prop :=
  ∀ (ws : List Cmd) (s : State), s.IdxInv → s.n = 0 → s.ones = 0 → s.runs = 0 →
    (∀ w ∈ ws, decode w ≠ .command .stClr) →
    (ws.filterMap pushedWord).length ≤ 2 ^ 27 - 1 →
    ∃ u rs, session ws s = some (u, rs) ∧
      u.n.toNat = (ws.filterMap pushedWord).length ∧
      u.ones.toNat = onesOf (ws.filterMap pushedWord) ∧
      u.runs.toNat = runsOf (ws.filterMap pushedWord)

/-- R137: at capacity a push fails with FULL and counts nothing, the counters stay readable, and `ST.CLR`
makes the accumulator usable again with `ERR` still set. -/
def Obligations.FullIsRecoverable : Prop :=
  ∀ (s : State) (w v : Word), s.n.toNat = 2 ^ 27 - 1 →
    ∃ u, session ([Instr.stPush w, .stRd 0, .stRd 1, .stRd 2, .stClr, .stPush v].map encode) s =
        some (u, [⟨.full, 0⟩, ⟨.ok, s.n⟩, ⟨.ok, s.ones⟩, ⟨.ok, s.runs⟩, ⟨.ok, 0⟩, ⟨.ok, 0⟩]) ∧
      u.n = 1 ∧ u.ones.toNat = popcount v ∧ u.runs = 1 ∧ u.prev = v ∧ u.err = true

/-! ## What a consumer forms -/

/-- R44, R135, R136: a word's sample value is at least 0 and below 1, so never the integer 1; distinct
words have distinct values; and the word is recovered from the value. -/
def Obligations.SampleValuesAreExact : Prop :=
  (∀ w : Word, 0 ≤ sampleValue w ∧ sampleValue w < 1 ∧ sampleWord (sampleValue w) = w.toNat) ∧
  (∀ w v : Word, w ≠ v ↔ sampleValue w ≠ sampleValue v) ∧
  (∀ ws : List Word, onesAsValue ws = 0)

/-- R139: with the accumulator invariants (R36) the monobit sum is `2 * ONES - 32 * N`, between
`-32 * N` and `32 * N`. -/
def Obligations.MonobitSumIsBounded : Prop :=
  ∀ s : State, s.CountInv →
    monobitSum s = 2 * (s.ones.toNat : Int) - 32 * (s.n.toNat : Int) ∧
    -(32 * (s.n.toNat : Int)) ≤ monobitSum s ∧ monobitSum s ≤ 32 * (s.n.toNat : Int)

/-! ## The array of a session -/

/-- R117, R52, R111, R112, R119: the array depends on the command words alone. In any session without
`SEED` from a seeded block, whatever other commands and failures it holds, the array ends twisted once for
every `MT.NEXT` that found the cursor at 0, and the cursor ends where the words put it, both counted from
the words; so after `SEED v` and such a session from any state the array is that many twists of the array
`v` seeds. -/
def Obligations.TwistsCountedByCommands : Prop :=
  ∀ ws : List Cmd, (∀ w ∈ ws, ∀ v, decode w ≠ .command (.seed v)) →
    (∀ s : State, s.seeded = true → s.IdxInv → ∃ u rs, session ws s = some (u, rs) ∧
      u.mt = twist^[twistsCounted s.idx.toNat ws] s.mt ∧
      u.idx.toNat = cursorCounted s.idx.toNat ws) ∧
    (∀ (s : State) (v : Word), ∃ u rs, session (encode (.seed v) :: ws) s = some (u, rs) ∧
      u.mt = twist^[twistsCounted 0 ws] (mtSeed v) ∧ u.idx.toNat = cursorCounted 0 ws)
end

