-- ==== Sys2Proof/Laws/Decode.lean ====
section
/-! SUPPORT. The two fields of a command word that is written as `op` above `data`. -/

namespace Sys2Proof

theorem getLsbD_fields (op : BitVec 8) (d : Word) (i : Nat) :
    (op ++ d : Cmd).getLsbD i = if i < 32 then d.getLsbD i else op.getLsbD (i - 32) :=
  (BitVec.getLsbD_append (x := op) (y := d) (i := i)).trans (by split <;> simp_all)

@[simp] theorem opField_append (op : BitVec 8) (d : Word) : opField (op ++ d) = op := by
  apply BitVec.eq_of_getLsbD_eq
  intro i hi
  rw [opField, BitVec.getLsbD_extractLsb', getLsbD_fields, if_neg (by omega)]
  simp [hi]

@[simp] theorem dataField_append (op : BitVec 8) (d : Word) : dataField (op ++ d) = d := by
  apply BitVec.eq_of_getLsbD_eq
  intro i hi
  rw [dataField, BitVec.getLsbD_extractLsb', getLsbD_fields, if_pos (by omega)]
  simp [hi]

/-- A command word is its `op` above its `data`. -/
theorem opField_dataField (w : Cmd) : (opField w ++ dataField w : Cmd) = w := by
  apply BitVec.eq_of_getLsbD_eq
  intro i hi
  rw [getLsbD_fields, opField, dataField, BitVec.getLsbD_extractLsb', BitVec.getLsbD_extractLsb']
  split
  · simp [*]
  · have h1 : i - 32 < 8 := by omega
    have h2 : 32 + (i - 32) = i := by omega
    simp [h1, h2]

/-- Decoding goes by the two fields alone. -/
theorem decode_append (op : BitVec 8) (d : Word) : decode (op ++ d) = decodeFields op d := by
  simp [decode]

end Sys2Proof
end

