-- ==== Sys2Proof/Laws/Memory.lean ====
section
/-! SUPPORT. The MT array (spec/20_memory.md R50): a read after a write, and that every operation keeps
the canonical form `Memory.wf`, in which equal arrays are equal lists. -/

namespace Sys2Proof.Machine

/-- Word indices strictly rising, the half of `Memory.wf` that a read after a write rests on. -/
abbrev Memory.sorted (m : Memory) : Prop := m.Pairwise (fun a b => a.1 < b.1)

@[simp] theorem Memory.read_nil (i : Nat) : Memory.read [] i = Memory.unlisted := rfl

theorem Memory.read_cons (k : Nat) (v : Word) (m : Memory) (i : Nat) :
    Memory.read ((k, v) :: m) i = if k = i then v else m.read i := rfl

/-- A word below every listed index is not listed. -/
theorem Memory.read_of_lt {m : Memory} {i : Nat} (h : ∀ c ∈ m, i < c.1) :
    m.read i = Memory.unlisted := by
  induction m with
  | nil => rfl
  | cons c m ih =>
    obtain ⟨k, v⟩ := c
    have hk : i < k := h (k, v) (by simp)
    rw [Memory.read_cons, if_neg (by omega)]
    exact ih fun c hc => h c (by simp [hc])

theorem Memory.sorted_cons {k : Nat} {v : Word} {m : Memory} :
    Memory.sorted ((k, v) :: m) ↔ (∀ c ∈ m, k < c.1) ∧ m.sorted := List.pairwise_cons

/-- Reading the word just written. -/
theorem Memory.read_write_self {m : Memory} (h : m.sorted) (i : Nat) (v : Word) :
    (m.write i v).read i = v := by
  induction m with
  | nil => by_cases hv : v = Memory.unlisted <;> simp [Memory.write, Memory.read, hv]
  | cons c m ih =>
    obtain ⟨k, u⟩ := c
    obtain ⟨hk, hm⟩ := Memory.sorted_cons.1 h
    rw [Memory.write]
    split
    · rw [Memory.read_cons, if_neg (by omega), ih hm]
    split
    · next hki =>
      split
      · next hv => rw [hv, Memory.read_of_lt fun c hc => by have := hk c hc; omega]
      · rw [Memory.read_cons, if_pos rfl]
    split
    · next hv =>
      rw [hv, Memory.read_of_lt]
      simp only [List.mem_cons, forall_eq_or_imp]
      exact ⟨by omega, fun c hc => by have := hk c hc; omega⟩
    · rw [Memory.read_cons, if_pos rfl]

/-- Reading any other word. -/
theorem Memory.read_write_of_ne {m : Memory} (i : Nat) (v : Word) {j : Nat} (hij : i ≠ j) :
    (m.write i v).read j = m.read j := by
  induction m with
  | nil => by_cases hv : v = Memory.unlisted <;> simp [Memory.write, Memory.read, hv, hij]
  | cons c m ih =>
    obtain ⟨k, u⟩ := c
    rw [Memory.write]
    split
    · rw [Memory.read_cons, ih, ← Memory.read_cons]
    split
    · next hki =>
      split
      · rw [Memory.read_cons, if_neg (by omega)]
      · rw [Memory.read_cons, Memory.read_cons, if_neg hij, if_neg (by omega)]
    split
    · rfl
    · rw [Memory.read_cons, if_neg hij]

theorem Memory.mem_write {m : Memory} {i : Nat} {v : Word} {c : Cell} (h : c ∈ m.write i v) :
    c ∈ m ∨ (c = (i, v) ∧ v ≠ Memory.unlisted) := by
  induction m with
  | nil =>
    by_cases hv : v = Memory.unlisted <;> simp [Memory.write, hv] at h
    exact .inr ⟨h, hv⟩
  | cons d m ih =>
    obtain ⟨k, u⟩ := d
    rw [Memory.write] at h
    split at h
    · rcases List.mem_cons.1 h with rfl | h
      · exact .inl (by simp)
      · exact (ih h).imp_left fun h => by simp [h]
    split at h
    · split at h
      · exact .inl (by simp [h])
      · rcases List.mem_cons.1 h with rfl | h
        · exact .inr ⟨rfl, ‹_›⟩
        · exact .inl (by simp [h])
    split at h
    · exact .inl h
    · rcases List.mem_cons.1 h with rfl | h
      · exact .inr ⟨rfl, ‹_›⟩
      · exact .inl h

theorem Memory.sorted_write {m : Memory} (h : m.sorted) (i : Nat) (v : Word) :
    (m.write i v).sorted := by
  induction m with
  | nil => by_cases hv : v = Memory.unlisted <;> simp [Memory.write, hv]
  | cons c m ih =>
    obtain ⟨k, u⟩ := c
    obtain ⟨hk, hm⟩ := Memory.sorted_cons.1 h
    rw [Memory.write]
    split
    · refine Memory.sorted_cons.2 ⟨fun c hc => ?_, ih hm⟩
      rcases Memory.mem_write hc with hc | ⟨rfl, -⟩
      · exact hk c hc
      · assumption
    split
    · next hki =>
      split
      · exact hm
      · exact Memory.sorted_cons.2 ⟨fun c hc => by have := hk c hc; omega, hm⟩
    split
    · exact h
    · refine Memory.sorted_cons.2 ⟨?_, h⟩
      simp only [List.mem_cons, forall_eq_or_imp]
      exact ⟨by omega, fun c hc => by have := hk c hc; omega⟩

/-- A write inside the array keeps the canonical form. -/
theorem Memory.wf_write {m : Memory} (h : m.wf) {i : Nat} (hi : i < Config.mtN) (v : Word) :
    (m.write i v).wf := by
  refine ⟨Memory.sorted_write h.1 i v, fun c hc => ?_⟩
  rcases Memory.mem_write hc with hc | ⟨rfl, hv⟩
  · exact h.2 c hc
  · exact ⟨hi, hv⟩

theorem Memory.mem_ofWords {ws : List Word} {i : Nat} {c : Cell} (h : c ∈ Memory.ofWords i ws) :
    i ≤ c.1 ∧ c.1 < i + ws.length ∧ c.2 ≠ Memory.unlisted := by
  induction ws generalizing i with
  | nil => simp [Memory.ofWords] at h
  | cons w ws ih =>
    rw [Memory.ofWords] at h
    split at h
    · have := ih h
      simp only [List.length_cons]
      exact ⟨by omega, by omega, this.2.2⟩
    · rcases List.mem_cons.1 h with rfl | h
      · exact ⟨le_refl _, by simp, ‹_›⟩
      · have := ih h
        simp only [List.length_cons]
        exact ⟨by omega, by omega, this.2.2⟩

theorem Memory.sorted_ofWords (ws : List Word) (i : Nat) : (Memory.ofWords i ws).sorted := by
  induction ws generalizing i with
  | nil => simp [Memory.ofWords]
  | cons w ws ih =>
    rw [Memory.ofWords]
    split
    · exact ih _
    · exact Memory.sorted_cons.2 ⟨fun c hc => by have := Memory.mem_ofWords hc; omega, ih _⟩

/-- An array filled with at most 624 words is in canonical form. -/
theorem Memory.wf_ofWords {ws : List Word} {i : Nat} (h : i + ws.length ≤ Config.mtN) :
    (Memory.ofWords i ws).wf :=
  ⟨Memory.sorted_ofWords ws i, fun _ hc => by
    have := Memory.mem_ofWords hc
    exact ⟨by omega, this.2.2⟩⟩

/-- What a filled array reads as. -/
theorem Memory.read_ofWords (ws : List Word) (i j : Nat) :
    (Memory.ofWords i ws).read (i + j) = ws.getD j Memory.unlisted := by
  induction ws generalizing i j with
  | nil => simp [Memory.ofWords]
  | cons w ws ih =>
    have hlow : (Memory.ofWords (i + 1) ws).read i = Memory.unlisted :=
      Memory.read_of_lt fun c hc => by have := Memory.mem_ofWords hc; omega
    rw [Memory.ofWords]
    cases j with
    | zero =>
      split
      · next hw => simp [hlow, hw]
      · simp [Memory.read_cons]
    | succ j =>
      have := ih (i + 1) j
      rw [Nat.add_right_comm] at this
      split
      · simpa [Nat.add_assoc] using this
      · rw [Memory.read_cons, if_neg (by omega)]
        simpa [Nat.add_assoc] using this

/-- Outside 0 to 623 a canonical array lists nothing. -/
theorem Memory.read_of_mtN_le {m : Memory} (h : m.wf) {i : Nat} (hi : Config.mtN ≤ i) :
    m.read i = Memory.unlisted := by
  induction m with
  | nil => rfl
  | cons c m ih =>
    obtain ⟨k, v⟩ := c
    have hk : k < Config.mtN := (h.2 (k, v) (by simp)).1
    rw [Memory.read_cons, if_neg (by omega)]
    exact ih ⟨(Memory.sorted_cons.1 h.1).2, fun c hc => h.2 c (by simp [hc])⟩

/-- Arrays in canonical form that read the same everywhere are equal lists. -/
theorem Memory.eq_of_read {m m' : Memory} (h : m.wf) (h' : m'.wf)
    (hr : ∀ i, m.read i = m'.read i) : m = m' := by
  induction m generalizing m' with
  | nil =>
    cases m' with
    | nil => rfl
    | cons c m' =>
      have := hr c.1
      simp [Memory.read] at this
      exact absurd this.symm (h'.2 c (by simp)).2
  | cons c m ih =>
    obtain ⟨k, v⟩ := c
    have hv := (h.2 (k, v) (by simp)).2
    obtain ⟨hk, hm⟩ := Memory.sorted_cons.1 h.1
    cases m' with
    | nil =>
      have := hr k
      simp [Memory.read] at this
      exact absurd this hv
    | cons d m' =>
      obtain ⟨l, w⟩ := d
      have hw := (h'.2 (l, w) (by simp)).2
      obtain ⟨hl, hm'⟩ := Memory.sorted_cons.1 h'.1
      have hkl : k = l := by
        rcases Nat.lt_trichotomy k l with hlt | heq | hgt
        · have := hr k
          rw [Memory.read_cons, if_pos rfl, Memory.read_of_lt] at this
          · exact absurd this hv
          · simp only [List.mem_cons, forall_eq_or_imp]
            exact ⟨hlt, fun c hc => by have := hl c hc; omega⟩
        · exact heq
        · have := hr l
          rw [Memory.read_cons l, if_pos rfl, Memory.read_of_lt] at this
          · exact absurd this.symm hw
          · simp only [List.mem_cons, forall_eq_or_imp]
            exact ⟨hgt, fun c hc => by have := hk c hc; omega⟩
      subst hkl
      have hvw : v = w := by simpa [Memory.read] using hr k
      subst hvw
      congr 1
      refine ih ⟨hm, fun c hc => h.2 c (by simp [hc])⟩ ⟨hm', fun c hc => h'.2 c (by simp [hc])⟩ ?_
      intro i
      by_cases hik : k = i
      · subst hik
        rw [Memory.read_of_lt hk, Memory.read_of_lt hl]
      · simpa [Memory.read_cons, hik] using hr i

end Sys2Proof.Machine
end

