-- ==== Sys2Proof/Laws/Mt.lean ====
section
/-! SUPPORT. The MT unit's functions keep the array in canonical form; what one twist step writes and
leaves; the cursor stays in range. -/

namespace Sys2Proof.Machine

@[simp] theorem mtSeedWords_length (k i : Nat) (p : Word) :
    (mtSeedWords k i p).length = k + 1 := by
  induction k generalizing i p with
  | zero => rfl
  | succ k ih => simp [mtSeedWords, ih]

theorem wf_mtSeed (s : Word) : (mtSeed s).wf :=
  Memory.wf_ofWords (by simp [Config.mtN])

theorem wf_twistStep {m : Memory} (h : m.wf) {i : Nat} (hi : i < 624) : (twistStep m i).wf :=
  Memory.wf_write h (by simpa [Config.mtN] using hi) _

/-- Step `i` of a twist rewrites word `i` alone. -/
theorem read_twistStep_of_ne {m : Memory} {i j : Nat} (hij : i ≠ j) :
    (twistStep m i).read j = m.read j := Memory.read_write_of_ne i _ hij

theorem read_twistStep_self {m : Memory} (h : m.wf) (i : Nat) :
    (twistStep m i).read i = twistWord m i := Memory.read_write_self h.1 i _

/-- The array after the first `k` steps of a twist. -/
def twistPrefix (m : Memory) (k : Nat) : Memory := (List.range k).foldl twistStep m

@[simp] theorem twistPrefix_zero (m : Memory) : twistPrefix m 0 = m := rfl

theorem twistPrefix_succ (m : Memory) (k : Nat) :
    twistPrefix m (k + 1) = twistStep (twistPrefix m k) k := by
  simp [twistPrefix, List.range_succ]

theorem twist_eq_twistPrefix (m : Memory) : twist m = twistPrefix m 624 := rfl

theorem wf_twistPrefix {m : Memory} (h : m.wf) {k : Nat} (hk : k ≤ 624) : (twistPrefix m k).wf := by
  induction k with
  | zero => exact h
  | succ k ih =>
    rw [twistPrefix_succ]
    exact wf_twistStep (ih (by omega)) (by omega)

theorem wf_twist {m : Memory} (h : m.wf) : (twist m).wf := wf_twistPrefix h (le_refl _)

/-- The cursor after a draw is inside 0 to 623 again. -/
theorem nextIdx_lt {idx : BitVec 10} (h : idx.toNat < 624) : (nextIdx idx).toNat < 624 := by
  unfold nextIdx
  split
  · simp
  · next hne =>
    have : idx.toNat ≠ 623 := fun he => hne (BitVec.eq_of_toNat_eq (by simpa using he))
    rw [BitVec.toNat_add]
    simp
    omega

end Sys2Proof.Machine
end

