-- ==== Sys2Proof/Laws/State.lean ====
section
/-! SUPPORT. One lemma per field per named update of State, so that no proof unfolds a record update:
`respond`, `latch`, `fail`, `takeResponse`, `afterReset`. -/

namespace Sys2Proof.Machine

/-! ## respond -/

@[simp] theorem State.respond_seed (s : State) (st : Status) (d : Word) :
    (s.respond st d).seed = s.seed := rfl
@[simp] theorem State.respond_x (s : State) (st : Status) (d : Word) :
    (s.respond st d).x = s.x := rfl
@[simp] theorem State.respond_mt (s : State) (st : Status) (d : Word) :
    (s.respond st d).mt = s.mt := rfl
@[simp] theorem State.respond_idx (s : State) (st : Status) (d : Word) :
    (s.respond st d).idx = s.idx := rfl
@[simp] theorem State.respond_n (s : State) (st : Status) (d : Word) :
    (s.respond st d).n = s.n := rfl
@[simp] theorem State.respond_ones (s : State) (st : Status) (d : Word) :
    (s.respond st d).ones = s.ones := rfl
@[simp] theorem State.respond_runs (s : State) (st : Status) (d : Word) :
    (s.respond st d).runs = s.runs := rfl
@[simp] theorem State.respond_prev (s : State) (st : Status) (d : Word) :
    (s.respond st d).prev = s.prev := rfl
@[simp] theorem State.respond_seeded (s : State) (st : Status) (d : Word) :
    (s.respond st d).seeded = s.seeded := rfl
@[simp] theorem State.respond_err (s : State) (st : Status) (d : Word) :
    (s.respond st d).err = s.err := rfl
@[simp] theorem State.respond_errcode (s : State) (st : Status) (d : Word) :
    (s.respond st d).errcode = s.errcode := rfl
@[simp] theorem State.respond_rsp (s : State) (st : Status) (d : Word) :
    (s.respond st d).rsp = some ⟨st, d⟩ := rfl
@[simp] theorem State.respond_host (s : State) (st : Status) (d : Word) :
    (s.respond st d).host = s.host := rfl
@[simp] theorem State.respond_delivered (s : State) (st : Status) (d : Word) :
    (s.respond st d).delivered = s.delivered := rfl

/-! ## latch -/

@[simp] theorem State.latch_seed (s : State) (c : Status) :
    (s.latch c).seed = s.seed := rfl
@[simp] theorem State.latch_x (s : State) (c : Status) :
    (s.latch c).x = s.x := rfl
@[simp] theorem State.latch_mt (s : State) (c : Status) :
    (s.latch c).mt = s.mt := rfl
@[simp] theorem State.latch_idx (s : State) (c : Status) :
    (s.latch c).idx = s.idx := rfl
@[simp] theorem State.latch_n (s : State) (c : Status) :
    (s.latch c).n = s.n := rfl
@[simp] theorem State.latch_ones (s : State) (c : Status) :
    (s.latch c).ones = s.ones := rfl
@[simp] theorem State.latch_runs (s : State) (c : Status) :
    (s.latch c).runs = s.runs := rfl
@[simp] theorem State.latch_prev (s : State) (c : Status) :
    (s.latch c).prev = s.prev := rfl
@[simp] theorem State.latch_seeded (s : State) (c : Status) :
    (s.latch c).seeded = s.seeded := rfl
@[simp] theorem State.latch_err (s : State) (c : Status) :
    (s.latch c).err = true := rfl
@[simp] theorem State.latch_errcode (s : State) (c : Status) :
    (s.latch c).errcode = if s.err then s.errcode else c.code := rfl
@[simp] theorem State.latch_rsp (s : State) (c : Status) :
    (s.latch c).rsp = s.rsp := rfl
@[simp] theorem State.latch_host (s : State) (c : Status) :
    (s.latch c).host = s.host := rfl
@[simp] theorem State.latch_delivered (s : State) (c : Status) :
    (s.latch c).delivered = s.delivered := rfl

/-! ## fail -/

@[simp] theorem State.fail_seed (s : State) (c : Status) :
    (s.fail c).seed = s.seed := rfl
@[simp] theorem State.fail_x (s : State) (c : Status) :
    (s.fail c).x = s.x := rfl
@[simp] theorem State.fail_mt (s : State) (c : Status) :
    (s.fail c).mt = s.mt := rfl
@[simp] theorem State.fail_idx (s : State) (c : Status) :
    (s.fail c).idx = s.idx := rfl
@[simp] theorem State.fail_n (s : State) (c : Status) :
    (s.fail c).n = s.n := rfl
@[simp] theorem State.fail_ones (s : State) (c : Status) :
    (s.fail c).ones = s.ones := rfl
@[simp] theorem State.fail_runs (s : State) (c : Status) :
    (s.fail c).runs = s.runs := rfl
@[simp] theorem State.fail_prev (s : State) (c : Status) :
    (s.fail c).prev = s.prev := rfl
@[simp] theorem State.fail_seeded (s : State) (c : Status) :
    (s.fail c).seeded = s.seeded := rfl
@[simp] theorem State.fail_err (s : State) (c : Status) :
    (s.fail c).err = true := rfl
@[simp] theorem State.fail_errcode (s : State) (c : Status) :
    (s.fail c).errcode = if s.err then s.errcode else c.code := rfl
@[simp] theorem State.fail_rsp (s : State) (c : Status) :
    (s.fail c).rsp = some ⟨c, 0⟩ := rfl
@[simp] theorem State.fail_host (s : State) (c : Status) :
    (s.fail c).host = s.host := rfl
@[simp] theorem State.fail_delivered (s : State) (c : Status) :
    (s.fail c).delivered = s.delivered := rfl

/-! ## takeResponse -/

@[simp] theorem State.takeResponse_seed (s : State) :
    s.takeResponse.seed = s.seed := rfl
@[simp] theorem State.takeResponse_x (s : State) :
    s.takeResponse.x = s.x := rfl
@[simp] theorem State.takeResponse_mt (s : State) :
    s.takeResponse.mt = s.mt := rfl
@[simp] theorem State.takeResponse_idx (s : State) :
    s.takeResponse.idx = s.idx := rfl
@[simp] theorem State.takeResponse_n (s : State) :
    s.takeResponse.n = s.n := rfl
@[simp] theorem State.takeResponse_ones (s : State) :
    s.takeResponse.ones = s.ones := rfl
@[simp] theorem State.takeResponse_runs (s : State) :
    s.takeResponse.runs = s.runs := rfl
@[simp] theorem State.takeResponse_prev (s : State) :
    s.takeResponse.prev = s.prev := rfl
@[simp] theorem State.takeResponse_seeded (s : State) :
    s.takeResponse.seeded = s.seeded := rfl
@[simp] theorem State.takeResponse_err (s : State) :
    s.takeResponse.err = s.err := rfl
@[simp] theorem State.takeResponse_errcode (s : State) :
    s.takeResponse.errcode = s.errcode := rfl
@[simp] theorem State.takeResponse_rsp (s : State) :
    s.takeResponse.rsp = none := rfl
@[simp] theorem State.takeResponse_host (s : State) :
    s.takeResponse.host = s.host := rfl
@[simp] theorem State.takeResponse_delivered (s : State) :
    s.takeResponse.delivered = s.delivered ++ s.rsp.toList := rfl

/-! ## afterReset -/

@[simp] theorem State.afterReset_seed (s : State) :
    s.afterReset.seed = 0 := rfl
@[simp] theorem State.afterReset_x (s : State) :
    s.afterReset.x = 0 := rfl
@[simp] theorem State.afterReset_mt (s : State) :
    s.afterReset.mt = [] := rfl
@[simp] theorem State.afterReset_idx (s : State) :
    s.afterReset.idx = 0 := rfl
@[simp] theorem State.afterReset_n (s : State) :
    s.afterReset.n = 0 := rfl
@[simp] theorem State.afterReset_ones (s : State) :
    s.afterReset.ones = 0 := rfl
@[simp] theorem State.afterReset_runs (s : State) :
    s.afterReset.runs = 0 := rfl
@[simp] theorem State.afterReset_prev (s : State) :
    s.afterReset.prev = 0 := rfl
@[simp] theorem State.afterReset_seeded (s : State) :
    s.afterReset.seeded = false := rfl
@[simp] theorem State.afterReset_err (s : State) :
    s.afterReset.err = false := rfl
@[simp] theorem State.afterReset_errcode (s : State) :
    s.afterReset.errcode = 0 := rfl
@[simp] theorem State.afterReset_rsp (s : State) :
    s.afterReset.rsp = none := rfl
@[simp] theorem State.afterReset_host (s : State) :
    s.afterReset.host = s.host := rfl
@[simp] theorem State.afterReset_delivered (s : State) :
    s.afterReset.delivered = s.delivered := rfl

/-- Two states are equal when their fourteen fields are. -/
theorem State.eq_of_fields {s t : State} (h1 : s.seed = t.seed) (h2 : s.x = t.x) (h3 : s.mt = t.mt)
    (h4 : s.idx = t.idx) (h5 : s.n = t.n) (h6 : s.ones = t.ones) (h7 : s.runs = t.runs)
    (h8 : s.prev = t.prev) (h9 : s.seeded = t.seeded) (h10 : s.err = t.err)
    (h11 : s.errcode = t.errcode) (h12 : s.rsp = t.rsp) (h13 : s.host = t.host)
    (h14 : s.delivered = t.delivered) : s = t := by
  cases s; cases t; simp_all

end Sys2Proof.Machine
end

