-- ==== Sys2Proof/Laws/Ops.lean ====
section
/-! SUPPORT. What the shared operations answer: `done`, `failed`, `whenSeeded`. -/

namespace Sys2Proof.Machine

@[simp] theorem done_eq_next {s t : State} {d : Word} :
    done s d = .next t ↔ s.respond .ok d = t := by simp [done]

@[simp] theorem failed_eq_next {s t : State} {c : Status} :
    failed s c = .next t ↔ s.fail c = t := by simp [failed]

@[simp] theorem done_ne_fault {s : State} {d : Word} {f : Fault} : done s d ≠ .fault f := by
  simp [done]

@[simp] theorem failed_ne_fault {s : State} {c : Status} {f : Fault} : failed s c ≠ .fault f := by
  simp [failed]

@[simp] theorem done_ne_refused {s : State} {d : Word} {r : Refusal} : done s d ≠ .refused r := by
  simp [done]

@[simp] theorem failed_ne_refused {s : State} {c : Status} {r : Refusal} :
    failed s c ≠ .refused r := by simp [failed]

theorem whenSeeded_of_seeded {s : State} (h : s.seeded = true)
    (k : Host.Outcome State Fault Refusal) : whenSeeded s k = k := by simp [whenSeeded, h]

theorem whenSeeded_of_unseeded {s : State} (h : s.seeded = false)
    (k : Host.Outcome State Fault Refusal) : whenSeeded s k = failed s .unseeded := by
  simp [whenSeeded, h]

/-- A guarded command that answers a next state either ran seeded or failed with UNSEEDED. -/
theorem whenSeeded_eq_next {s t : State} {k : Host.Outcome State Fault Refusal} :
    whenSeeded s k = .next t ↔
      (s.seeded = true ∧ k = .next t) ∨ (s.seeded = false ∧ s.fail .unseeded = t) := by
  cases h : s.seeded <;> simp [whenSeeded, h]

/-- A failure's code is one of 1 to 4 (spec/60_exceptions.md R151). -/
theorem Status.code_bounds {c : Status} (h : c ≠ .ok) : 1 ≤ c.code.toNat ∧ c.code.toNat ≤ 4 := by
  cases c <;> simp_all [Status.code]

end Sys2Proof.Machine
end

