-- ==== Sys2Proof/Laws/Exec.lean ====
section
/-! SUPPORT. What a command and a step can do, said once: `exec_cases`, `runCommand_cases`,
`step_cases`. -/

namespace Sys2Proof.Machine

/-- The registers and the array after a command that succeeds, before its response. -/
def effect (i : Instr) (s : State) : State :=
  match i with
  | .nop | .sysRd _ | .lcgRd | .mtRd _ | .stRd _ => s
  | .seed v => { s with seed := v, x := v, mt := mtSeed v, idx := 0, seeded := true }
  | .lcgNext => { s with x := lcgStep s.x }
  | .mtStart => { s with idx := 0 }
  | .mtNext => { s with mt := drawArray s, idx := nextIdx s.idx }
  | .stClr => { s with n := 0, ones := 0, runs := 0 }
  | .stPush w =>
    { s with
      ones := s.ones + BitVec.ofNat 32 (popcount w)
      runs := if s.n = 0 ∨ w ≠ s.prev then s.runs + 1 else s.runs
      prev := w
      n := s.n + 1 }

/-- A command that answers a next state failed, and did nothing but `State.fail`, or had its effect and
responded OK. -/
theorem exec_cases {i : Instr} {s t : State} (h : exec i s = .next t) :
    (∃ c, c ≠ .ok ∧ t = s.fail c) ∨ (∃ d, t = (effect i s).respond .ok d) := by
  cases i with
  | nop => exact .inr ⟨0, (done_eq_next.1 h).symm⟩
  | seed v => exact .inr ⟨0, (done_eq_next.1 h).symm⟩
  | sysRd r =>
    simp only [exec, execSysRd] at h
    split at h
    · exact .inl ⟨_, by simp, (failed_eq_next.1 h).symm⟩
    · exact .inr ⟨_, (done_eq_next.1 h).symm⟩
    all_goals
      rcases whenSeeded_eq_next.1 h with ⟨-, h⟩ | ⟨-, h⟩
      · exact .inr ⟨_, (done_eq_next.1 h).symm⟩
      · exact .inl ⟨_, by simp, h.symm⟩
  | lcgNext =>
    rcases whenSeeded_eq_next.1 h with ⟨-, h⟩ | ⟨-, h⟩
    · exact .inr ⟨_, (done_eq_next.1 h).symm⟩
    · exact .inl ⟨_, by simp, h.symm⟩
  | lcgRd =>
    rcases whenSeeded_eq_next.1 h with ⟨-, h⟩ | ⟨-, h⟩
    · exact .inr ⟨_, (done_eq_next.1 h).symm⟩
    · exact .inl ⟨_, by simp, h.symm⟩
  | mtStart =>
    rcases whenSeeded_eq_next.1 h with ⟨-, h⟩ | ⟨-, h⟩
    · exact .inr ⟨_, (done_eq_next.1 h).symm⟩
    · exact .inl ⟨_, by simp, h.symm⟩
  | mtNext =>
    rcases whenSeeded_eq_next.1 h with ⟨-, h⟩ | ⟨-, h⟩
    · split at h
      · cases h
      · exact .inr ⟨_, (done_eq_next.1 h).symm⟩
    · exact .inl ⟨_, by simp, h.symm⟩
  | mtRd k =>
    simp only [exec, execMtRd] at h
    split at h
    · exact .inl ⟨_, by simp, (failed_eq_next.1 h).symm⟩
    · rcases whenSeeded_eq_next.1 h with ⟨-, h⟩ | ⟨-, h⟩
      · exact .inr ⟨_, (done_eq_next.1 h).symm⟩
      · exact .inl ⟨_, by simp, h.symm⟩
  | stClr => exact .inr ⟨0, (done_eq_next.1 h).symm⟩
  | stPush w =>
    simp only [exec, execStPush] at h
    split at h
    · exact .inl ⟨_, by simp, (failed_eq_next.1 h).symm⟩
    · exact .inr ⟨0, (done_eq_next.1 h).symm⟩
  | stRd r =>
    simp only [exec, execStRd] at h
    split at h
    · exact .inl ⟨_, by simp, (failed_eq_next.1 h).symm⟩
    all_goals exact .inr ⟨_, (done_eq_next.1 h).symm⟩

/-- A command word that answers a next state was illegal and failed so, or ran its command. -/
theorem runCommand_cases {w : Cmd} {s t : State} (h : runCommand w s = .next t) :
    (∃ op, decode w = .illegal op ∧ t = s.fail .illegal) ∨
      (∃ i, decode w = .command i ∧ exec i s = .next t) := by
  unfold runCommand at h
  split at h
  · next i hi => exact .inr ⟨i, hi, h⟩
  · next op hop => exact .inl ⟨op, hop, (failed_eq_next.1 h).symm⟩

/-- A step that answers a next state: idle, a command word, an accepted response, or a reset. -/
theorem step_cases {s t : State} (h : step s = .next t) :
    (s.host = [] ∧ t = s) ∨
    (∃ w rest, s.host = .command w :: rest ∧
      runCommand w ({ s with host := rest } : State).takeResponse = .next t) ∨
    (∃ rest, s.host = .accept :: rest ∧ t = ({ s with host := rest } : State).takeResponse) ∨
    (∃ rest, s.host = .reset :: rest ∧ t = ({ s with host := rest } : State).afterReset) := by
  unfold step serveNext at h
  split at h
  · next he => cases h; exact .inl ⟨he, rfl⟩
  · next a rest he =>
    cases a with
    | command w => exact .inr (.inl ⟨w, rest, he, h⟩)
    | accept => cases h; exact .inr (.inr (.inl ⟨rest, he, rfl⟩))
    | reset => cases h; exact .inr (.inr (.inr ⟨rest, he, rfl⟩))

end Sys2Proof.Machine
end

