-- ==== Sys2Proof/Laws/PerInstr.lean ====
section
/-! SUPPORT. Statements made per instruction: the family `EncodeFields` says which two fields the
encoding of a command has (spec/30_encoding.md R77, R83). -/

namespace Sys2Proof.Laws.EncodeFields

/-- The encoding's `op` is the command's opcode, and its `data` the operand, or 0 without one. -/
def Statement (i : Instr) : Prop :=
  opField (encode i) = i.opcode ∧ dataField (encode i) = i.operand.getD 0

theorem of_fields (i : Instr) : Statement i := ⟨opField_append _ _, dataField_append _ _⟩

theorem nop : Statement .nop := of_fields _
theorem seed (s : Word) : Statement (.seed s) := of_fields _
theorem sysRd (r : Word) : Statement (.sysRd r) := of_fields _
theorem lcgNext : Statement .lcgNext := of_fields _
theorem lcgRd : Statement .lcgRd := of_fields _
theorem mtStart : Statement .mtStart := of_fields _
theorem mtNext : Statement .mtNext := of_fields _
theorem mtRd (i : Word) : Statement (.mtRd i) := of_fields _
theorem stClr : Statement .stClr := of_fields _
theorem stPush (w : Word) : Statement (.stPush w) := of_fields _
theorem stRd (r : Word) : Statement (.stRd r) := of_fields _

end Sys2Proof.Laws.EncodeFields
end

