-- ==== Sys2Proof/Laws/Session.lean ====
section
/-! SUPPORT. Sessions, one command at a time. -/

namespace Sys2Proof.Machine

@[simp] theorem session_nil (s : State) : session [] s = some (s, []) := rfl

/-- A session goes on with the state and the response its first command leaves. -/
theorem session_cons {w : Cmd} {ws : List Cmd} {s t u : State} {r : Response} {rs : List Response}
    (h : runCommand w s = .next t) (hr : t.rsp = some r) (hs : session ws t = some (u, rs)) :
    session (w :: ws) s = some (u, r :: rs) := by
  simp [session, h, hr, hs]

/-- A session of a first command and more is one step and a session. -/
theorem session_cons_cases {w : Cmd} {ws : List Cmd} {s u : State} {rs : List Response}
    (h : session (w :: ws) s = some (u, rs)) :
    ∃ t r rs', runCommand w s = .next t ∧ t.rsp = some r ∧ session ws t = some (u, rs') ∧
      rs = r :: rs' := by
  rw [session] at h
  split at h
  · next t ht =>
    split at h
    · next r u' rs' hr hs =>
      simp only [Option.some.injEq, Prod.mk.injEq] at h
      obtain ⟨rfl, rfl⟩ := h
      exact ⟨t, r, rs', ht, hr, hs, rfl⟩
    · cases h
  · cases h
  · cases h

end Sys2Proof.Machine
end

