-- ==== Sys2Proof/Tests/Slice0.lean ====
section
/-! SUPPORT. The model's own tests. Expected values are the spec's: spec/95_test_vectors.md (named V-…,
P…), and the examples of the command rules. Small states are built by the helpers below; each test is one
step. The last part shows, for every statement with hypotheses, a state that meets them. -/

namespace Sys2Proof.Tests

open Sys2Proof.Machine

/-! ## Helpers -/

/-- The response a command left, if it answered a next state. -/
def respOf : Host.Outcome State Fault Refusal → Option (BitVec 4 × Word)
  | .next t => t.rsp.map (fun r => (r.status.code, r.data))
  | .fault _ => none
  | .refused _ => none

/-- The next state, or the state after reset where there is none. -/
def nextOf : Host.Outcome State Fault Refusal → State
  | .next t => t
  | .fault _ => State.reset
  | .refused _ => State.reset

/-- A seeded block with `X = 42`, the cursor at 5 and a nearly empty array. -/
def seeded : State := { State.reset with
  seeded := true, seed := 1, x := 42, idx := 5, mt := [(5, 0x9CB47A9A), (623, 0x80000000)] }

/-- The accumulator after the word 5 (V-ST-1: N = 1, ONES = 2, RUNS = 1). -/
def counting : State := { State.reset with n := 1, ones := 2, runs := 1, prev := 5 }

/-- The accumulator one word below capacity (V-ST-3). -/
def nearlyFull : State := { State.reset with
  n := 134217726, ones := 4294967232, runs := 1, prev := 0xFFFFFFFF }

/-- The accumulator at capacity (V-ST-3). -/
def full : State := { nearlyFull with n := 0x07FFFFFF, ones := 0xFFFFFFE0 }

/-- A block that has failed before, with UNSEEDED. -/
def failedBefore : State := { State.reset with err := true, errcode := 3 }

/-- A block with the host's next acts. -/
def acting (s : State) (acts : List HostAct) : State := { s with host := acts }

/-! ## Well-formedness: an ill-formed term for each check (R76) -/

theorem test_wellFormed_sysRd : (Instr.sysRd 3).wellFormed = false ∧ (Instr.sysRd 2).wellFormed = true := by
  decide
theorem test_wellFormed_stRd : (Instr.stRd 3).wellFormed = false ∧ (Instr.stRd 2).wellFormed = true := by
  decide
theorem test_wellFormed_mtRd :
    (Instr.mtRd 624).wellFormed = false ∧ (Instr.mtRd 623).wellFormed = true ∧
      (Instr.mtRd 0x00010000).wellFormed = false := by decide
theorem test_memory_wf : ¬ Memory.wf [(1, 0)] ∧ ¬ Memory.wf [(2, 1), (1, 1)] ∧
    ¬ Memory.wf [(1, 1), (1, 2)] ∧ ¬ Memory.wf [(624, 1)] ∧ Memory.wf [(0, 1), (623, 2)] := by decide

/-! ## Decoding: words of P1 to P4, V-SYS-2, V-SYS-3, written out from the encoding (R74, R77) -/

theorem test_decode_nop : decode 0x00FFFFFFFF#40 = .command .nop := by decide
theorem test_decode_seed : decode 0x010000002A#40 = .command (.seed 42) := by decide
theorem test_decode_sysRd : decode 0x0200000002#40 = .command (.sysRd 2) := by decide
theorem test_decode_lcgNext : decode 0x10DEADBEEF#40 = .command .lcgNext := by decide
theorem test_decode_lcgRd : decode 0x1100000000#40 = .command .lcgRd := by decide
theorem test_decode_mtStart : decode 0x2000000000#40 = .command .mtStart := by decide
theorem test_decode_mtNext : decode 0x2100000000#40 = .command .mtNext := by decide
theorem test_decode_mtRd : decode 0x220000026F#40 = .command (.mtRd 623) := by decide
theorem test_decode_stClr : decode 0x3000000000#40 = .command .stClr := by decide
theorem test_decode_stPush : decode 0x314099B17F#40 = .command (.stPush 0x4099B17F) := by decide
theorem test_decode_stRd : decode 0x3200000003#40 = .command (.stRd 3) := by decide
/-- One word bit by bit: op 0x31 in bits 39 to 32, data 0x80000001 in bits 31 to 0. -/
theorem test_decode_bits :
    decode 0b0011000110000000000000000000000000000001#40 = .command (.stPush 0x80000001) := by decide
theorem test_decode_illegal :
    decode 0x0300000000#40 = .illegal 0x03 ∧ decode 0x1200000000#40 = .illegal 0x12 ∧
    decode 0x2300000000#40 = .illegal 0x23 ∧ decode 0x3300000000#40 = .illegal 0x33 ∧
    decode 0x7F00000005#40 = .illegal 0x7F ∧ decode 0xFF00000000#40 = .illegal 0xFF := by decide
theorem test_encode : encode (.seed 42) = 0x010000002A#40 ∧ encode .mtNext = 0x2100000000#40 := by decide
theorem test_decodeTableWord :
    decodeTableWord 40 0x2200000000 = some (.mtRd 0) ∧ decodeTableWord 40 0x3300000000 = none := by decide

/-! ## The assembler (R83) -/

theorem test_asm_seed : assemble ['S', 'E', 'E', 'D', ' ', '4', '2'] = some 0x010000002A#40 := by decide
theorem test_asm_hex : assemble ['M', 'T', '.', 'R', 'D', ' ', '0', 'x', '2', '6', 'F', ' ', ';', 'x'] =
    some 0x220000026F#40 := by decide
theorem test_asm_rejects : assemble ['S', 'E', 'E', 'D'] = none ∧
    assemble ['N', 'O', 'P', ' ', '1'] = none ∧ assemble ['n', 'o', 'p'] = none ∧
    assemble ['S', 'E', 'E', 'D', ' ', '4', '2', '9', '4', '9', '6', '7', '2', '9', '6'] = none := by decide

/-! ## NOP, SEED, SYS.RD -/

/-- R90's example, on a block that has failed before. -/
theorem test_nop : exec .nop failedBefore = .next { failedBefore with rsp := some ⟨.ok, 0⟩ } := by rfl
/-- V-MT-1, seed 1: MT[1], MT[2], MT[623]. -/
theorem test_seed_one : let t := nextOf (exec (.seed 1) State.reset)
    (t.mt.read 0, t.mt.read 1, t.mt.read 2, t.mt.read 623) =
      (0x00000001, 0x6C078966, 0xDD5254A5, 0x7B5687A5) := by decide +kernel
/-- V-MT-1, seed 0, and R91's corner case: no twist, X = 0, IDX = 0. -/
theorem test_seed_zero : let t := nextOf (exec (.seed 0) seeded)
    (t.mt.read 0, t.mt.read 1, t.mt.read 3, t.x, t.idx) = (0, 1, 0x714ACB41, 0, 0) := by decide +kernel
/-- V-SYS-1: ERR = 1 and ERRCODE = 3 read 0x32 unseeded. -/
theorem test_sysRd_status : respOf (exec (.sysRd 0) failedBefore) = some (0, 0x32) := by decide
/-- V-SYS-1: SYS.RD 1 fails UNSEEDED after reset, SYS.RD 3 fails RANGE and keeps ERRCODE. -/
theorem test_sysRd_fails : respOf (exec (.sysRd 1) State.reset) = some (3, 0) ∧
    respOf (exec (.sysRd 3) failedBefore) = some (2, 0) ∧
    (nextOf (exec (.sysRd 3) failedBefore)).errcode = 3 := by decide

/-! ## LCG -/

/-- V-LCG-1 and R100's example: X = 42 gives 0x4099B17F. -/
theorem test_lcgNext : respOf (exec .lcgNext seeded) = some (0, 0x4099B17F) ∧
    (nextOf (exec .lcgNext seeded)).x = 0x4099B17F := by decide
/-- R100's corner case (c): the product wraps. -/
theorem test_lcgNext_wraps : lcgStep 0xFFFFFFFF = 0x3C558D50 ∧ lcgStep 0x4099B17F = 0x165C90D0 := by decide
/-- V-LCG-4 and V-LCG-5. -/
theorem test_lcgRd : respOf (exec .lcgRd seeded) = some (0, 42) ∧
    respOf (exec .lcgRd State.reset) = some (3, 0) := by decide

/-! ## MT -/

/-- P6: MT.START sets the cursor to 0, and fails unseeded (V-MT-10). -/
theorem test_mtStart : (nextOf (exec .mtStart seeded)).idx = 0 ∧
    respOf (exec .mtStart State.reset) = some (3, 0) := by decide
/-- A draw in the middle of a batch: temper(0x9CB47A9A) = 0x6AC1F425 (V-MT-8), cursor 5 to 6; and the
wrap of the cursor (R112 b): at 623 the word 0x80000000 gives 0x88102204 (V-MT-8), and no twist runs. -/
theorem test_mtNext : respOf (exec .mtNext seeded) = some (0, 0x6AC1F425) ∧
    (nextOf (exec .mtNext seeded)).idx = 6 ∧
    respOf (exec .mtNext { seeded with idx := 623 }) = some (0, 0x88102204) ∧
    (nextOf (exec .mtNext { seeded with idx := 623 })).idx = 0 ∧
    (nextOf (exec .mtNext { seeded with idx := 623 })).mt = seeded.mt := by decide
/-- P2: the first draw after SEED 1 twists before it outputs. -/
theorem test_mtNext_first : respOf (exec .mtNext (nextOf (exec (.seed 1) State.reset))) =
    some (0, 0x6AC1F425) := by decide +kernel
/-- V-MT-2: two twist steps by hand. -/
theorem test_twistStep : let m : Memory :=
      [(0, 0x00000001), (1, 0x6C078966), (2, 0xDD5254A5), (397, 0xAAB7BE29), (398, 0x06700B85)]
    (twistStep m 0).read 0 = 0x9CB47A9A ∧ (twistStep m 1).read 1 = 0xB1D19108 := by decide
/-- V-MT-3, seed 1: word 227 is made from the new word 0 (R116, 90_conflicts.md C1). -/
theorem test_twist_in_place :
    (twistStep (twistStep (mtSeed 1) 0) 227).read 227 = 0x7B12610F := by decide +kernel
/-- V-MT-8: the tempering of three words. -/
theorem test_temper : temper 0x12345678 = 0x2B7E4A2D ∧ temper 0x00000001 = 0x00400091 ∧
    temper 0xFFFFFFFF = 0x6FE01BF8 := by decide
/-- V-MT-10: RANGE before UNSEEDED, all 32 bits compared; the last legal index. -/
theorem test_mtRd : respOf (exec (.mtRd 700) State.reset) = some (2, 0) ∧
    respOf (exec (.mtRd 0x00010000) seeded) = some (2, 0) ∧
    respOf (exec (.mtRd 623) seeded) = some (0, 0x80000000) ∧
    respOf (exec (.mtRd 0) State.reset) = some (3, 0) := by decide

/-! ## ST -/

/-- R130: the counters are cleared, PREV and ERR are not. -/
theorem test_stClr : let t := nextOf (exec .stClr { counting with err := true })
    (t.n, t.ones, t.runs, t.prev, t.err) = (0, 0, 0, 5, true) := by decide
/-- V-ST-1: "5, 5" counts one run and "5, 6" two; R131 (a): the first word after clear starts a run even
when it equals PREV. -/
theorem test_stPush : (nextOf (exec (.stPush 5) counting)).runs = 1 ∧
    (nextOf (exec (.stPush 6) counting)).runs = 2 ∧ (nextOf (exec (.stPush 6) counting)).ones = 4 ∧
    (nextOf (exec (.stPush 5) { counting with n := 0, ones := 0, runs := 0 })).runs = 1 := by decide
/-- V-ST-3: the last word that fits, and the one that does not. -/
theorem test_stPush_full : nextOf (exec (.stPush 0xFFFFFFFF) nearlyFull) =
      { full with rsp := some ⟨.ok, 0⟩ } ∧
    exec (.stPush 7) full =
      .next { full with err := true, errcode := 4, rsp := some ⟨.full, 0⟩ } := by
  refine ⟨by decide, rfl⟩
/-- V-ST-4 and P3. -/
theorem test_stRd : respOf (exec (.stRd 1) counting) = some (0, 2) ∧
    respOf (exec (.stRd 3) counting) = some (2, 0) := by decide

/-! ## Steps -/

/-- P4: 0x7F00000005 fails ILLEGAL (status 1) and, on a fresh block, leaves STATUS = 0x12 (V-SYS-3). -/
theorem test_step_illegal : let t := nextOf (step (State.reset.withFetchWord 40 0x7F00000005))
    t.rsp = some ⟨.illegal, 0⟩ ∧ statusWord t = 0x12 ∧ t.host = [] := by decide
/-- The response on offer is transferred before the next command is accepted (R71). -/
theorem test_step_delivers :
    let t := nextOf (step (acting { seeded with rsp := some ⟨.ok, 7⟩ } [.command 0x1100000000#40]))
    t.delivered = [⟨.ok, 7⟩] ∧ t.rsp = some ⟨.ok, 42⟩ := by decide
/-- A reset abandons the response on offer (R183) and clears the latch (R181). -/
theorem test_step_reset :
    let t := nextOf (step (acting { failedBefore with rsp := some ⟨.ok, 7⟩ } [.reset, .accept]))
    t = acting State.reset [.accept] := by decide

/-- The first step after reset runs SEED and, unseeded, MT.NEXT (V-MT-10). -/
theorem test_step_first : (nextOf (step (State.reset.withFetchWord 40 0x0100000007))).x = 7 ∧
    (nextOf (step (State.reset.withFetchWord 40 0x2100000000))).rsp = some ⟨.unseeded, 0⟩ := by decide

/-! ## Witnesses: the hypotheses of each statement can be met -/

/-- `DecodeAndEncodeAgree`: two equal encodings, and a word that meets each side of the third clause. -/
theorem witness_DecodeAndEncodeAgree : encode (.mtRd 7) = encode (.mtRd 7) ∧
    decode 0x2200000007#40 = .command (.mtRd 7) ∧ opField 0x2200000007#40 = (Instr.mtRd 7).opcode := by decide

/-- `UnassignedOpcodesAreIllegal`, `IllegalOpcodeFails`: the unassigned opcodes beside the assigned. -/
theorem witness_UnassignedOpcodes : ∀ op ∈ [0x03#8, 0x0F#8, 0x12#8, 0x1F#8, 0x23#8, 0x2F#8, 0x33#8, 0xFF#8],
    op ∉ [0x00#8, 0x01#8, 0x02#8, 0x10#8, 0x11#8, 0x20#8, 0x21#8, 0x22#8, 0x30#8, 0x31#8, 0x32#8] := by decide

/-- `AssemblerReadsItsSyntax`: an operand in decimal, in hexadecimal with digits of either case, one too
large, and a line that assembles. -/
theorem witness_AssemblerReadsItsSyntax : IsOperand ['4', '2'] (42 : Word).toNat ∧
    IsOperand ['0', 'x', '2', '6', 'F'] (0x26F : Word).toNat ∧
    IsOperand ['0', 'x', '2', '6', 'f'] (0x26F : Word).toNat ∧
    IsOperand ['0', 'x', '1', '0', '0', '0', '0', '0', '0', '0', '0'] 0x100000000 ∧
    2 ^ 32 ≤ 0x100000000 ∧ assemble ['N', 'O', 'P'] = some 0 :=
  ⟨.inl ⟨[4, 2], by decide, by simp, by decide⟩,
    .inr ⟨_, rfl, [2, 6, 15], by decide, by simp; decide, by decide⟩,
    .inr ⟨_, rfl, [2, 6, 15], by decide, by simp, by decide⟩,
    .inr ⟨_, rfl, [1, 0, 0, 0, 0, 0, 0, 0, 0], by decide, by simp, by decide⟩,
    by decide, by decide⟩

/-- `StepRunsTheDecodedCommand`: a command word and an illegal one as the next act. -/
theorem witness_StepRunsTheDecodedCommand :
    (acting seeded [.command 0x1000000000#40]).host = .command 0x1000000000#40 :: [] ∧
    decode 0x1000000000#40 = .command .lcgNext ∧
    (acting seeded [.command 0x0300000000#40]).host = .command 0x0300000000#40 :: [] ∧
    decode 0x0300000000#40 = .illegal 0x03 := by decide

/-- `StepIdleAndStepAccept`: no act, and an acceptance. -/
theorem witness_StepIdleAndStepAccept :
    seeded.host = [] ∧ (acting seeded [.accept]).host = .accept :: [] := by decide

/-- `ResetEffectAndOnlyResetClears`, `ResetAbandonsTheResponse`: a reset of a block with everything set,
and a step that is no reset on a seeded block with an error. -/
theorem witness_ResetEffect :
    (∃ r, (acting { failedBefore with seeded := true, n := 1 } [.reset]).host = .reset :: [] ∧
      step (acting { failedBefore with seeded := true, n := 1 } [.reset]) = .next r) ∧
    (∃ t, step (acting { failedBefore with seeded := true } [.command 0#40]) = .next t ∧
      ∀ rest, (acting { failedBefore with seeded := true } [.command 0#40]).host ≠ .reset :: rest) :=
  ⟨⟨_, rfl, rfl⟩, ⟨_, rfl, by simp [acting]⟩⟩

/-- `EveryCommandGetsOneResponse`, `PortIsHeldUntilTheResponse`, `TheMachineNeverStops`, `StatusByOrderOfChecks`: cursors 0, 5 and 623
are in range. -/
theorem witness_IdxInv : State.reset.IdxInv ∧ seeded.IdxInv ∧ ({ seeded with idx := 623 } : State).IdxInv ∧
    (acting seeded [.command 0x2100000000#40]).host = .command 0x2100000000#40 :: [] := by
  simp [State.IdxInv, State.reset, seeded, acting]

/-- `ResponsesAreWellFormed`: a failing word, and one that succeeds and returns nothing. -/
theorem witness_Responses : (∃ t, runCommand 0x7F00000005#40 seeded = .next t) ∧
    (∃ t, runCommand 0x2000000000#40 seeded = .next t ∧ decode 0x2000000000#40 = .command .mtStart) :=
  ⟨⟨_, rfl⟩, ⟨_, rfl, rfl⟩⟩

/-- `PortIsHeldUntilTheResponse`: an acceptance and a reset as the next act. -/
theorem witness_Port : (acting seeded [.accept]).host = .accept :: [] ∧
    (acting seeded [.reset]).host = .reset :: [] := by decide

/-- `OnlyStopIsCursorOutOfRange`: the cursor just outside the array stops the draw. -/
theorem witness_OnlyStop :
    exec .mtNext { seeded with idx := 624 } = .fault .mtIndexOutOfRange ∧
    (624 : Nat) ≤ ({ seeded with idx := 624 } : State).idx.toNat := ⟨rfl, by decide⟩

/-- `RunDeliversTheSession`: a session of a command, a failure and an illegal word. -/
theorem witness_session : seeded.rsp = none ∧ ∃ u rs,
    session [0x1100000000#40, 0x2200000270#40, 0x7F00000005#40] seeded = some (u, rs) ∧ rs.length = 3 :=
  ⟨rfl, _, _, rfl, rfl⟩

/-- `FailLatchesTheFirstCode`: both kinds of block, and a code that is no OK. -/
theorem witness_FailLatches : Status.range ≠ .ok ∧ seeded.err = false ∧ failedBefore.err = true := by decide

/-- `RangeFailsExactlyOutOfRange`: the first operand out of each range. -/
theorem witness_RangeFails : (Instr.sysRd 3).wellFormed = false ∧ (Instr.stRd 3).wellFormed = false ∧
    (Instr.mtRd 624).wellFormed = false := by decide

/-- `FailingCommandsLeaveNoTrace`: a failing and a successful command word, and a session with both. -/
theorem witness_FailingCommands :
    (∃ t, runCommand 0x2200000270#40 seeded = .next t ∧ t.rsp = some ⟨.range, 0⟩) ∧
    (∃ t, runCommand 0x1100000000#40 seeded = .next t ∧ t.rsp = some ⟨.ok, 42⟩) ∧
    (∃ u rs, session [0x2200000270#40, 0x1100000000#40] seeded = some (u, rs)) ∧
    keepSuccessful [0x2200000270#40, 0x1100000000#40] seeded = [0x1100000000#40] :=
  ⟨⟨_, rfl, rfl⟩, ⟨_, rfl, rfl⟩, ⟨_, _, rfl⟩, by decide⟩

/-- `FrameOfEveryCommand`: a command that succeeds, one that fails, and an array in canonical form. -/
theorem witness_Frame : (∃ t, exec .lcgNext seeded = .next t) ∧ (∃ t, exec (.mtRd 624) seeded = .next t) ∧
    (∃ t, exec .mtNext seeded = .next t ∧ seeded.idx ≠ 0) ∧ seeded.ArrayInv :=
  ⟨⟨_, rfl⟩, ⟨_, rfl⟩, ⟨_, rfl, by decide⟩, by unfold State.ArrayInv; decide⟩

/-- `ReadsHaveNoSideEffect`: each of the four read commands succeeds. -/
theorem witness_Reads : (∃ t, exec .lcgRd seeded = .next t ∧ t.rsp = some ⟨.ok, 42⟩) ∧
    (∃ t, exec (.sysRd 2) seeded = .next t ∧ t.rsp = some ⟨.ok, 5⟩) ∧
    (∃ t, exec (.mtRd 623) seeded = .next t ∧ t.rsp = some ⟨.ok, 0x80000000⟩) ∧
    (∃ t, exec (.stRd 2) counting = .next t ∧ t.rsp = some ⟨.ok, 1⟩) :=
  ⟨⟨_, rfl, rfl⟩, ⟨_, rfl, rfl⟩, ⟨_, rfl, rfl⟩, ⟨_, rfl, rfl⟩⟩

/-- `StLcgMtCommandsIgnoreEachOthersState`: the state put in is another one than the state replaced. -/
theorem witness_Units : counting.withGenerators seeded ≠ counting ∧ seeded.withAccumulator counting ≠ seeded ∧
    seeded.withMtUnit State.reset ≠ seeded ∧ seeded.withLcgUnit State.reset ≠ seeded := by decide

/-- `StepKeepsTheArrayCanonical`, `StepKeepsTheCursorInRange`: a draw from a canonical array. -/
theorem witness_StepKeepsArray : (acting seeded [.command 0x2100000000#40]).ArrayInv ∧
    (acting seeded [.command 0x2100000000#40]).IdxInv ∧
    ∃ t, step (acting seeded [.command 0x2100000000#40]) = .next t :=
  ⟨by unfold State.ArrayInv; decide, by unfold State.IdxInv; decide, _, rfl⟩

/-- `StepKeepsTheLatch`: a first failure, and a later one. -/
theorem witness_StepKeepsLatch : State.reset.LatchInv ∧ failedBefore.LatchInv ∧
    (∃ t, step (acting State.reset [.command 0x1000000000#40]) = .next t ∧ State.reset.err = false ∧
      t.err = true) ∧
    (∃ t, step (acting failedBefore [.command 0x7F00000000#40]) = .next t ∧ failedBefore.err = true ∧
      ∀ rest, (acting failedBefore [.command 0x7F00000000#40]).host ≠ .reset :: rest) :=
  ⟨by unfold State.LatchInv; decide, by unfold State.LatchInv; decide, ⟨_, rfl, rfl, rfl⟩,
    ⟨_, rfl, rfl, by simp [acting]⟩⟩

/-- `CountersStayConsistent`, `MonobitSumIsBounded`: empty, counting, and full accumulators. -/
theorem witness_CountInv : State.reset.CountInv ∧ counting.CountInv ∧ nearlyFull.CountInv ∧ full.CountInv ∧
    ∃ t, step (acting nearlyFull [.command 0x31FFFFFFFF#40]) = .next t := by
  refine ⟨?_, ?_, ?_, ?_, _, rfl⟩ <;> (unfold State.CountInv; decide)

/-- `StepKeepsTheStreams`: a step for each clause: `SEED`, the two draws on a seeded block (the cursor
away from 0 and at 0), and no act, an acceptance, a failing command, another command. -/
theorem witness_Streams :
    (∃ t, step (acting State.reset [.command 0x0100000007#40]) = .next t ∧
      decode 0x0100000007#40 = .command (.seed 7)) ∧
    (∃ t, step (acting seeded [.command 0x1000000000#40]) = .next t ∧
      decode 0x1000000000#40 = .command .lcgNext ∧ seeded.seeded = true) ∧
    (∃ t, step (acting seeded [.command 0x2100000000#40]) = .next t ∧
      decode 0x2100000000#40 = .command .mtNext ∧ seeded.idx ≠ 0) ∧
    (∃ t, step (acting { seeded with idx := 0 } [.command 0x2100000000#40]) = .next t) ∧
    (∃ t, step seeded = .next t ∧ seeded.host = []) ∧
    (∃ t, step (acting seeded [.accept]) = .next t) ∧
    (∃ t, step (acting State.reset [.command 0x1000000000#40]) = .next t ∧ State.reset.seeded = false ∧
      ∀ v, decode 0x1000000000#40 ≠ .command (.seed v)) ∧
    (∃ t, step (acting seeded [.command 0x2000000000#40]) = .next t ∧
      decode 0x2000000000#40 = .command .mtStart) :=
  ⟨⟨_, rfl, rfl⟩, ⟨_, rfl, rfl, rfl⟩, ⟨_, rfl, rfl, by decide⟩, ⟨_, rfl⟩, ⟨_, rfl, rfl⟩, ⟨_, rfl⟩,
    ⟨_, rfl, rfl, fun v h => by cases h⟩, ⟨_, rfl, rfl⟩⟩

/-- `TwistsCountedByCommands`: a session with two twists (R117: the draw that finds the cursor at 0, and the
first draw after `MT.START`), a draw between them and a failure; it leaves the cursor at 1. -/
theorem witness_TwistsCounted : seeded.seeded = true ∧ seeded.IdxInv ∧
    (∀ w ∈ [0x2100000000#40, 0x2100000000#40, 0x2200000270#40, 0x2000000000#40, 0x2100000000#40],
      ∀ v, decode w ≠ .command (.seed v)) ∧
    twistsCounted 0 [0x2100000000#40, 0x2100000000#40, 0x2200000270#40, 0x2000000000#40, 0x2100000000#40] = 2 ∧
    cursorCounted 0 [0x2100000000#40, 0x2100000000#40, 0x2200000270#40, 0x2000000000#40, 0x2100000000#40] = 1 := by
  refine ⟨rfl, by unfold State.IdxInv; decide, ?_, by decide, by decide⟩
  intro w hw v
  simp only [List.mem_cons, List.not_mem_nil, or_false] at hw
  rcases hw with rfl | rfl | rfl | rfl | rfl <;> exact fun h => by cases h

/-- `UnspecifiedRegistersAreUnobservable`: two unlike states that look alike. -/
theorem witness_SameVisible : State.reset.SameVisible { seeded with seeded := false, prev := 9 } ∧
    State.reset ≠ { seeded with seeded := false, prev := 9 } :=
  ⟨⟨rfl, rfl, rfl, rfl, rfl, rfl, rfl, rfl, rfl, fun h => absurd h (by decide), fun h => absurd rfl h⟩,
    by decide⟩

/-- `SeedInitializesGenerators`: the first and the last index of the recurrence. -/
theorem witness_Seed : (1 ≤ 1 ∧ 1 ≤ 623) ∧ (1 ≤ 623 ∧ 623 ≤ 623) := by decide

/-- `SysRdReadsRegisters`, `StRdReadsCounters`: a register number for each clause, seeded and not. -/
theorem witness_RegisterNumbers : 2 < (3 : Word).toNat ∧ 2 < (0xFFFFFFFF : Word).toNat ∧
    seeded.seeded = true ∧ State.reset.seeded = false ∧ ((1 : Word) = 1 ∨ (1 : Word) = 2) ∧ (2 : Word) = 2 ∧
    (0 : Word) = 0 := by decide

/-- `LcgNextStepsX`, `LcgRdReadsX`, `LcgStepIsBijective`, `LcgGenConcatenates`, `MtStartZeroesTheCursor`,
`MtNextDraws`, `MtGenDrawsFromSuccessiveTwists`: a seeded and an unseeded block, the cursor in range. -/
theorem witness_Seeded : seeded.seeded = true ∧ seeded.x = 42 ∧ State.reset.seeded = false ∧
    seeded.idx.toNat < 624 := by decide

/-- `LcgSequenceContinues`: draws with other commands and a failure between them, and no SEED. -/
theorem witness_LcgSequence : seeded.seeded = true ∧ seeded.IdxInv ∧
    lcgDraws [0x1000000000#40, 0x2200000270#40, 0x1000000000#40] = 2 ∧
    ∀ w ∈ [0x1000000000#40, 0x2200000270#40, 0x1000000000#40], ∀ v, decode w ≠ .command (.seed v) := by
  refine ⟨rfl, by unfold State.IdxInv; decide, by decide, ?_⟩
  intro w hw v
  simp only [List.mem_cons, List.not_mem_nil, or_false] at hw
  rcases hw with rfl | rfl | rfl <;> exact fun h => by cases h

/-- `TwistReadsOldAndNewWords`: a canonical array, and indices where the clauses meet. -/
theorem witness_Twist : Memory.wf [(0, 1), (226, 2), (227, 3), (622, 4), (623, 5)] ∧ 226 ≤ 226 ∧
    (227 ≤ 227 ∧ 227 ≤ 622) ∧ (227 ≤ 622 ∧ 622 ≤ 622) := by decide

/-- `MtRdReadsAWord`: the last index and the first outside. -/
theorem witness_MtRd : 624 ≤ (624 : Word).toNat ∧ (623 : Word).toNat < 624 ∧ seeded.seeded = true ∧
    State.reset.seeded = false := by decide

/-- `StPushCountsAWord`, `StPushCompletesEverywhere`, `FullIsRecoverable`: at capacity, and one below it. -/
theorem witness_StPush : full.n.toNat = 2 ^ 27 - 1 ∧ nearlyFull.n.toNat ≠ 2 ^ 27 - 1 ∧ nearlyFull.CountInv :=
  ⟨by decide, by decide, by unfold State.CountInv; decide⟩

/-- `CountersOfASample`: an empty accumulator and a session with pushes and another command. -/
theorem witness_CountersOfASample : State.reset.IdxInv ∧ State.reset.n = 0 ∧ State.reset.ones = 0 ∧
    State.reset.runs = 0 ∧
    (∀ w ∈ [0x3100000005#40, 0x1000000000#40, 0x3100000006#40], decode w ≠ .command .stClr) ∧
    ([0x3100000005#40, 0x1000000000#40, 0x3100000006#40].filterMap pushedWord) = [5, 6] := by
  refine ⟨by unfold State.IdxInv; decide, rfl, rfl, rfl, ?_, rfl⟩
  intro w hw
  simp only [List.mem_cons, List.not_mem_nil, or_false] at hw
  rcases hw with rfl | rfl | rfl <;> exact fun h => by cases h

/-- `SampleValuesAreExact`: two distinct words. -/
theorem witness_Sample : (0 : Word) ≠ 0xFFFFFFFF := by decide

end Sys2Proof.Tests
end

section
/-! ## What a command leaves unchanged

Facts about `effect`, the change of a command that succeeds, and from them the frame of `exec`: a failure
changes the latch and the response alone, so each register needs only its lemma about `effect`. -/

namespace Sys2Proof.Machine

@[simp] theorem effect_err (i : Instr) (s : State) : (effect i s).err = s.err := by
  cases i <;> rfl

@[simp] theorem effect_errcode (i : Instr) (s : State) : (effect i s).errcode = s.errcode := by
  cases i <;> rfl

@[simp] theorem effect_host (i : Instr) (s : State) : (effect i s).host = s.host := by
  cases i <;> rfl

@[simp] theorem effect_delivered (i : Instr) (s : State) :
    (effect i s).delivered = s.delivered := by
  cases i <;> rfl

theorem effect_seed_of_ne {i : Instr} (hseed : ∀ v, i ≠ .seed v) (s : State) :
    (effect i s).seed = s.seed ∧ (effect i s).seeded = s.seeded := by
  cases i with
  | seed v => exact absurd rfl (hseed v)
  | _ => exact ⟨rfl, rfl⟩

theorem effect_x_of_ne {i : Instr} (hseed : ∀ v, i ≠ .seed v) (hlcg : i ≠ .lcgNext) (s : State) :
    (effect i s).x = s.x := by
  cases i with
  | seed v => exact absurd rfl (hseed v)
  | lcgNext => exact absurd rfl hlcg
  | _ => rfl

theorem effect_idx_of_ne {i : Instr} (hseed : ∀ v, i ≠ .seed v) (hstart : i ≠ .mtStart)
    (hnext : i ≠ .mtNext) (s : State) : (effect i s).idx = s.idx := by
  cases i with
  | seed v => exact absurd rfl (hseed v)
  | mtStart => exact absurd rfl hstart
  | mtNext => exact absurd rfl hnext
  | _ => rfl

/-- A draw away from index 0 twists nothing (R112). -/
theorem drawArray_of_ne {s : State} (h : s.idx ≠ 0) : drawArray s = s.mt := if_neg h

theorem effect_mt_of_ne {i : Instr} {s : State} (hseed : ∀ v, i ≠ .seed v)
    (hnext : i ≠ .mtNext ∨ s.idx ≠ 0) : (effect i s).mt = s.mt := by
  cases i with
  | seed v => exact absurd rfl (hseed v)
  | mtNext => exact drawArray_of_ne (hnext.resolve_left fun h => h rfl)
  | _ => rfl

theorem effect_counters_of_ne {i : Instr} (hclr : i ≠ .stClr) (hpush : ∀ w, i ≠ .stPush w)
    (s : State) :
    (effect i s).n = s.n ∧ (effect i s).ones = s.ones ∧ (effect i s).runs = s.runs := by
  cases i with
  | stClr => exact absurd rfl hclr
  | stPush w => exact absurd rfl (hpush w)
  | _ => exact ⟨rfl, rfl, rfl⟩

theorem effect_prev_of_ne {i : Instr} (hpush : ∀ w, i ≠ .stPush w) (s : State) :
    (effect i s).prev = s.prev := by
  cases i with
  | stPush w => exact absurd rfl (hpush w)
  | _ => rfl

theorem wf_drawArray {s : State} (h : s.ArrayInv) : (drawArray s).wf := by
  unfold drawArray
  split
  · exact wf_twist h
  · exact h

theorem effect_arrayInv {s : State} (h : s.ArrayInv) (i : Instr) : (effect i s).ArrayInv := by
  cases i with
  | seed v => exact wf_mtSeed v
  | mtNext => exact wf_drawArray h
  | _ => exact h

/-- A part `f` of the state is as before when a failure and the command's effect both keep it. -/
theorem exec_keeps {α : Type} (f : State → α) {i : Instr} {s t : State} (h : exec i s = .next t)
    (hfail : ∀ c, f (s.fail c) = f s)
    (hok : ∀ d, f ((effect i s).respond .ok d) = f s) : f t = f s := by
  obtain ⟨c, -, rfl⟩ | ⟨d, rfl⟩ := exec_cases h
  · exact hfail c
  · exact hok d

section
variable {i : Instr} {s t : State} (h : exec i s = .next t)
include h

theorem exec_arrayInv (hs : s.ArrayInv) : t.ArrayInv := by
  obtain ⟨c, -, rfl⟩ | ⟨d, rfl⟩ := exec_cases h
  · exact hs
  · exact effect_arrayInv hs i

/-- Words outside 0 to 623 read the same before and after, both arrays being canonical. -/
theorem exec_read_outside (hs : s.ArrayInv) {a : Nat} (ha : 624 ≤ a) :
    t.mt.read a = s.mt.read a := by
  rw [Memory.read_of_mtN_le hs ha, Memory.read_of_mtN_le (exec_arrayInv h hs) ha]

/-- A command that responds OK leaves the latch alone (R158). -/
theorem exec_latch_of_ok {d : Word} (hok : t.rsp = some ⟨.ok, d⟩) :
    t.err = s.err ∧ t.errcode = s.errcode := by
  obtain ⟨c, hc, rfl⟩ | ⟨d, rfl⟩ := exec_cases h
  · simp [hc] at hok
  · simp

end

/-- Settles O20: register by register, from what `effect` leaves. -/
theorem frameOfEveryCommand : Obligations.FrameOfEveryCommand := by
  intro i s t h
  refine ⟨fun hseed => ?seed, fun hseed hlcg => ?x, fun hseed hstart hnext => ?idx,
    fun hseed hnext a => ?word, fun hs a ha => exec_read_outside h hs ha,
    fun hclr hpush => ?counters, fun hpush => ?prev, fun d => exec_latch_of_ok h, ?host, ?delivered⟩
  case seed =>
    obtain ⟨hs, hd⟩ := effect_seed_of_ne hseed s
    exact ⟨exec_keeps (·.seed) h (fun _ => rfl) fun _ => hs,
      exec_keeps (·.seeded) h (fun _ => rfl) fun _ => hd⟩
  case x => exact exec_keeps (·.x) h (fun _ => rfl) fun _ => effect_x_of_ne hseed hlcg s
  case idx => exact exec_keeps (·.idx) h (fun _ => rfl) fun _ => effect_idx_of_ne hseed hstart hnext s
  case word =>
    rw [exec_keeps (·.mt) h (fun _ => rfl) fun _ => effect_mt_of_ne hseed hnext]
  case counters =>
    obtain ⟨hn, hones, hruns⟩ := effect_counters_of_ne hclr hpush s
    exact ⟨exec_keeps (·.n) h (fun _ => rfl) fun _ => hn,
      exec_keeps (·.ones) h (fun _ => rfl) fun _ => hones,
      exec_keeps (·.runs) h (fun _ => rfl) fun _ => hruns⟩
  case prev => exact exec_keeps (·.prev) h (fun _ => rfl) fun _ => effect_prev_of_ne hpush s
  case host => exact exec_keeps (·.host) h (fun _ => rfl) fun _ => effect_host i s
  case delivered => exact exec_keeps (·.delivered) h (fun _ => rfl) fun _ => effect_delivered i s

end Sys2Proof.Machine
end

section
/-! ## Invariants: reset, and one step -/

namespace Sys2Proof.Machine

theorem afterReset_inv (s : State) : s.afterReset.Inv where
  array := by simp [State.ArrayInv, Memory.wf]
  idx := by simp [State.IdxInv]
  latch := by simp [State.LatchInv]
  count := by simp [State.CountInv]

/-- Settles O23: the state after reset is what a reset makes of it. -/
theorem resetMeetsTheInvariants : Obligations.ResetMeetsTheInvariants :=
  fun acts => afterReset_inv { State.reset with host := acts }

/-- A property that no channel operation can break is kept by every step when it holds after reset and is
kept by every failure and by every command that succeeds. -/
theorem step_preserves {P : State → Prop}
    (hport : ∀ s acts, P s → P ({ s with host := acts } : State).takeResponse)
    (hreset : ∀ s : State, P s.afterReset)
    (hfail : ∀ s c, c ≠ .ok → P s → P (s.fail c))
    (hok : ∀ i s d, P s → exec i s = .next ((effect i s).respond .ok d) →
      P ((effect i s).respond .ok d))
    {s t : State} (hs : P s) (h : step s = .next t) : P t := by
  obtain ⟨-, rfl⟩ | ⟨w, rest, -, hrun⟩ | ⟨rest, -, rfl⟩ | ⟨rest, -, rfl⟩ := step_cases h
  · exact hs
  · have hs' := hport s rest hs
    obtain ⟨op, -, rfl⟩ | ⟨i, -, hexec⟩ := runCommand_cases hrun
    · exact hfail _ _ (by simp) hs'
    · obtain ⟨c, hc, rfl⟩ | ⟨d, rfl⟩ := exec_cases hexec
      · exact hfail _ c hc hs'
      · exact hok i _ d hs' hexec
  · exact hport s rest hs
  · exact hreset _

/-! ## The cursor (R24, R37) -/

theorem effect_idxInv {s : State} (h : s.IdxInv) (i : Instr) : (effect i s).IdxInv := by
  cases i with
  | seed v => simp [effect, State.IdxInv]
  | mtStart => simp [effect, State.IdxInv]
  | mtNext => exact nextIdx_lt h
  | _ => exact h

/-- Settles O25: a command that writes the cursor sets it to 0 or moves it on inside 0 to 623. -/
theorem stepKeepsTheCursorInRange : Obligations.StepKeepsTheCursorInRange :=
  fun _ _ => step_preserves (P := State.IdxInv) (fun _ _ h => h) (fun s => (afterReset_inv s).idx)
    (fun _ _ _ h => h) (fun i _ _ h _ => effect_idxInv h i)

/-! ## The error latch (R32, R152) -/

/-- What a step can do to the latch: keep it, clear it by a reset, or latch the code of a failure. -/
theorem step_latch_cases {s t : State} (h : step s = .next t) :
    (t.err = s.err ∧ t.errcode = s.errcode) ∨
    ((∃ rest, s.host = .reset :: rest) ∧ t.err = false ∧ t.errcode = 0) ∨
    (∃ c, c ≠ .ok ∧ t.rsp = some ⟨c, 0⟩ ∧ t.err = true ∧
      t.errcode = if s.err then s.errcode else c.code) := by
  obtain ⟨-, rfl⟩ | ⟨w, rest, -, hrun⟩ | ⟨rest, -, rfl⟩ | ⟨rest, hreset, rfl⟩ := step_cases h
  · exact .inl ⟨rfl, rfl⟩
  · obtain ⟨op, -, rfl⟩ | ⟨i, -, hexec⟩ := runCommand_cases hrun
    · exact .inr (.inr ⟨.illegal, by simp, rfl, rfl, rfl⟩)
    · obtain ⟨c, hc, rfl⟩ | ⟨d, rfl⟩ := exec_cases hexec
      · exact .inr (.inr ⟨c, hc, rfl, rfl, rfl⟩)
      · exact .inl (by simp)
  · exact .inl ⟨rfl, rfl⟩
  · exact .inr (.inl ⟨⟨rest, hreset⟩, rfl, rfl⟩)

theorem fail_latchInv {s : State} {c : Status} (hc : c ≠ .ok) (h : s.LatchInv) :
    (s.fail c).LatchInv := by
  obtain ⟨hpos, hcode⟩ := Status.code_bounds hc
  cases herr : s.err with
  | true => simpa [State.LatchInv, herr] using h
  | false =>
    have hne : c.code ≠ 0#4 := fun h0 => by simp [h0] at hpos
    simp [State.LatchInv, herr, hne, hcode]

/-- Settles O26: a failure is the only act that sets the latch, and it writes a code of 1 to 4 once. -/
theorem stepKeepsTheLatch : Obligations.StepKeepsTheLatch := by
  refine ⟨fun s t => ?keep, fun s t h hclear hset => ?rise, fun s t h hreset hset => ?hold⟩
  case keep =>
    exact step_preserves (P := State.LatchInv) (fun _ _ h => h) (fun s => (afterReset_inv s).latch)
      (fun _ _ hc h => fail_latchInv hc h) (fun i s d h _ => by simpa [State.LatchInv] using h)
  case rise =>
    obtain ⟨herr, -⟩ | ⟨-, herr, -⟩ | ⟨c, hc, hrsp, -, hcode⟩ := step_latch_cases h
    · simp [herr, hclear] at hset
    · simp [herr] at hset
    · exact ⟨c, hc, hrsp, by simpa [hclear] using hcode⟩
  case hold =>
    obtain ⟨herr, hcode⟩ | ⟨⟨rest, hr⟩, -⟩ | ⟨c, -, -, herr, hcode⟩ := step_latch_cases h
    · exact ⟨herr.trans hset, hcode⟩
    · exact absurd hr (hreset rest)
    · exact ⟨herr, by simpa [hset] using hcode⟩

/-! ## The accumulator (R36, R131) -/

theorem popcount_le (w : Word) : popcount w ≤ 32 := by
  have := List.sum_le_card_nsmul ((List.range 32).map fun i => (w.getLsbD i).toNat) 1
    (by simp [Bool.toNat_le])
  simpa [popcount] using this

/-- `CountInv` in naturals: at most one run per word, and at least one once there is a word. -/
theorem countInv_iff {s : State} :
    s.CountInv ↔ s.n.toNat ≤ Config.stNMax ∧ s.ones.toNat ≤ 32 * s.n.toNat ∧
      s.runs.toNat ≤ s.n.toNat ∧ (0 < s.n.toNat → 0 < s.runs.toNat) := by
  have hzero (v : Word) : v = 0 ↔ v.toNat = 0 := by simp [← BitVec.toNat_inj]
  simp only [State.CountInv, hzero]
  omega

/-- A push that succeeds did not find the accumulator full (R131). -/
theorem not_full_of_stPush_ok {w d : Word} {s t : State} (h : exec (.stPush w) s = .next t)
    (hok : t.rsp = some ⟨.ok, d⟩) : s.n ≠ BitVec.ofNat 32 Config.stNMax := by
  intro hfull
  have hfail : s.fail .full = t := failed_eq_next.1 (by simpa [exec, execStPush, hfull] using h)
  simp [← hfail] at hok

section
variable {s : State} (hs : s.CountInv) (hn : s.n ≠ BitVec.ofNat 32 Config.stNMax)
include hs hn

theorem n_lt_of_not_full : s.n.toNat < 2 ^ 27 - 1 := by
  obtain ⟨hle, -⟩ := countInv_iff.1 hs
  have hne : s.n.toNat ≠ Config.stNMax := fun h => hn (BitVec.eq_of_toNat_eq (by simp [h, Config.stNMax]))
  simp only [Config.stNMax] at hle hne
  omega

theorem stPush_n_toNat (w : Word) : (effect (.stPush w) s).n.toNat = s.n.toNat + 1 := by
  have := n_lt_of_not_full hs hn
  simp [effect]
  omega

theorem stPush_ones_toNat (w : Word) :
    (effect (.stPush w) s).ones.toNat = s.ones.toNat + popcount w := by
  have hlt := n_lt_of_not_full hs hn
  obtain ⟨-, hones, -⟩ := countInv_iff.1 hs
  have hpop := popcount_le w
  simp [effect]
  omega

theorem stPush_runs_toNat (w : Word) :
    (effect (.stPush w) s).runs.toNat =
      s.runs.toNat + if s.n = 0 ∨ w ≠ s.prev then 1 else 0 := by
  have hlt := n_lt_of_not_full hs hn
  obtain ⟨-, -, hruns, -⟩ := countInv_iff.1 hs
  simp only [effect]
  split
  · simp
    omega
  · rfl

/-- A push counts one word, at most 32 one bits and at most one run, and the first word starts a run. -/
theorem stPush_countInv (w : Word) : (effect (.stPush w) s).CountInv := by
  have hlt := n_lt_of_not_full hs hn
  obtain ⟨-, hones, hruns, hpos⟩ := countInv_iff.1 hs
  have hpop := popcount_le w
  rw [countInv_iff, stPush_n_toNat hs hn, stPush_ones_toNat hs hn, stPush_runs_toNat hs hn]
  refine ⟨by simp only [Config.stNMax]; omega, by omega, ?_, fun _ => ?_⟩
  · split <;> omega
  · split
    · omega
    · next hold =>
      have hne : s.n.toNat ≠ 0 := fun h0 => hold (.inl (BitVec.eq_of_toNat_eq (by simp [h0])))
      omega

end

theorem effect_countInv {i : Instr} {s : State} {d : Word} (hs : s.CountInv)
    (h : exec i s = .next ((effect i s).respond .ok d)) : (effect i s).CountInv := by
  cases i with
  | stClr => simp [effect, State.CountInv]
  | stPush w => exact stPush_countInv hs (not_full_of_stPush_ok h rfl) w
  | _ => exact hs

/-- Settles O27: reset clears the counters, and of the commands only `ST.CLR` and a push below capacity
write them. -/
theorem countersStayConsistent : Obligations.CountersStayConsistent :=
  ⟨fun acts => (resetMeetsTheInvariants acts).count, fun _ _ =>
    step_preserves (P := State.CountInv) (fun _ _ h => h) (fun s => (afterReset_inv s).count)
      (fun _ _ _ h => h) (fun _ _ _ hs h => effect_countInv hs h)⟩

end Sys2Proof.Machine
end

section
/-! ## Sample values (R44, R135, R136) -/

namespace Sys2Proof.Machine

theorem sampleValue_nonneg (w : Word) : 0 ≤ sampleValue w := by
  unfold sampleValue
  positivity

theorem sampleValue_lt_one (w : Word) : sampleValue w < 1 := by
  have hw : (w.toNat : Rat) < 2 ^ 32 := by exact_mod_cast w.isLt
  exact (div_lt_one (by norm_num)).2 hw

theorem sampleWord_sampleValue (w : Word) : sampleWord (sampleValue w) = w.toNat := by
  have hscale : sampleValue w * 2 ^ 32 = (w.toNat : Int) := by
    simp [sampleValue]
  rw [sampleWord, hscale, Rat.floor_intCast]

/-- The word is recovered from its value, so distinct words have distinct values. -/
theorem sampleValue_injective : Function.Injective sampleValue := by
  intro w v h
  apply BitVec.eq_of_toNat_eq
  have hword : (w.toNat : Int) = v.toNat := by
    rw [← sampleWord_sampleValue, ← sampleWord_sampleValue, h]
  exact_mod_cast hword

/-- Settles O54: a word is below `2^32`, and scaling its value back gives the word itself. -/
theorem sampleValuesAreExact : Obligations.SampleValuesAreExact := by
  refine ⟨fun w => ⟨sampleValue_nonneg w, sampleValue_lt_one w, sampleWord_sampleValue w⟩,
    fun w v => sampleValue_injective.ne_iff.symm, fun ws => ?_⟩
  simp [onesAsValue, fun w => (sampleValue_lt_one w).ne]

end Sys2Proof.Machine
end

section
/-! ## What a command answers, on every state

`exec_eq` gives the outcome of every command: the failure that is due by the order of checks (R157), the
one stop (log entry 7), or the command's `effect` with its `answer`. -/

namespace Sys2Proof.Machine

/-- The response data of a command that succeeds (R75: 0 when it returns nothing). -/
def answer (i : Instr) (s : State) : Word :=
  match i with
  | .nop | .seed _ | .mtStart | .stClr | .stPush _ => 0
  | .sysRd r => if r = 0 then statusWord s else if r = 1 then s.seed else s.idx.setWidth 32
  | .lcgNext => lcgStep s.x
  | .lcgRd => s.x
  | .mtNext => temper ((drawArray s).read s.idx.toNat)
  | .mtRd k => s.mt.read k.toNat
  | .stRd r => if r = 0 then s.n else if r = 1 then s.ones else s.runs

/-! ### Which failure is due -/

theorem statusDue_of_not_wellFormed {i : Instr} (h : i.wellFormed = false) (s : State) :
    statusDue s (.command i) = .range := if_pos h

theorem statusDue_of_needsSeed {i : Instr} (hwf : i.wellFormed = true) (hneeds : needsSeed i = true)
    (s : State) : statusDue s (.command i) = if s.seeded then .ok else .unseeded := by
  have hpush : isPush i = false := by
    cases i with
    | stPush w => cases hneeds
    | _ => rfl
  cases hs : s.seeded <;> simp [statusDue, *]

theorem statusDue_stPush (w : Word) (s : State) :
    statusDue s (.command (.stPush w)) =
      if s.n = BitVec.ofNat 32 Config.stNMax then .full else .ok := by
  have hfull : s.n.toNat = Config.stNMax ↔ s.n = BitVec.ofNat 32 Config.stNMax := by
    rw [← BitVec.toNat_inj]
    rfl
  simp [statusDue, Instr.wellFormed, needsSeed, isPush, hfull]

/-! ### Register numbers (R33, R34) -/

theorem register_cases {r : Word} (h : r.toNat ≤ 2) : r = 0 ∨ r = 1 ∨ r = 2 := by
  bv_omega

theorem sysRegOf_eq_none {r : Word} (h : 2 < r.toNat) : sysRegOf r = none := by
  rw [sysRegOf, if_neg (by bv_omega), if_neg (by bv_omega), if_neg (by bv_omega)]

theorem statRegOf_eq_none {r : Word} (h : 2 < r.toNat) : statRegOf r = none := by
  rw [statRegOf, if_neg (by bv_omega), if_neg (by bv_omega), if_neg (by bv_omega)]

/-! ### The outcome -/

/-- An operand out of its range fails with RANGE before anything else (R154). -/
theorem exec_of_not_wellFormed {i : Instr} (h : i.wellFormed = false) (s : State) :
    exec i s = failed s .range := by
  cases i with
  | sysRd r => simp [exec, execSysRd, sysRegOf_eq_none (by simpa [Instr.wellFormed] using h)]
  | stRd r => simp [exec, execStRd, statRegOf_eq_none (by simpa [Instr.wellFormed] using h)]
  | mtRd k =>
    have hk : mtIndexOf k = none := if_neg (by simpa [Instr.wellFormed] using h)
    simp [exec, execMtRd, hk]
  | _ => cases h

/-- The seeded check in terms of the failure that is due. -/
theorem whenSeeded_eq_due {i : Instr} (hwf : i.wellFormed = true) (hneeds : needsSeed i = true)
    (s : State) (k : Host.Outcome State Fault Refusal) :
    whenSeeded s k =
      if statusDue s (.command i) ≠ .ok then failed s (statusDue s (.command i)) else k := by
  rw [statusDue_of_needsSeed hwf hneeds]
  cases hs : s.seeded <;> simp [whenSeeded, hs]

/-- Every command on every state. -/
theorem exec_eq (i : Instr) (s : State) :
    exec i s =
      if statusDue s (.command i) ≠ .ok then failed s (statusDue s (.command i))
      else if i = .mtNext ∧ 624 ≤ s.idx.toNat then .fault .mtIndexOutOfRange
      else done (effect i s) (answer i s) := by
  cases hwf : i.wellFormed with
  | false => simp [exec_of_not_wellFormed hwf, statusDue_of_not_wellFormed hwf]
  | true =>
    cases i with
    | nop => rfl
    | seed v => rfl
    | stClr => rfl
    | lcgNext => exact whenSeeded_eq_due hwf rfl s _
    | lcgRd => exact whenSeeded_eq_due hwf rfl s _
    | mtStart => exact whenSeeded_eq_due hwf rfl s _
    | mtNext =>
      refine (whenSeeded_eq_due hwf rfl s _).trans ?_
      by_cases hidx : s.idx.toNat < 624
      · simp [Memory.word?, Config.mtN, hidx, effect, answer, not_le.2 hidx]
      · simp [Memory.word?, Config.mtN, hidx, not_lt.1 hidx]
    | mtRd k =>
      have hk : mtIndexOf k = some k.toNat := if_pos (by simpa [Instr.wellFormed] using hwf)
      rw [exec, execMtRd, hk]
      exact whenSeeded_eq_due hwf rfl s _
    | sysRd r =>
      obtain rfl | rfl | rfl := register_cases (by simpa [Instr.wellFormed] using hwf)
      · rfl
      · exact whenSeeded_eq_due hwf rfl s _
      · exact whenSeeded_eq_due hwf rfl s _
    | stPush w =>
      rw [statusDue_stPush]
      by_cases hn : s.n = BitVec.ofNat 32 Config.stNMax <;>
        simp [exec, execStPush, hn, effect, answer]
    | stRd r =>
      obtain rfl | rfl | rfl := register_cases (by simpa [Instr.wellFormed] using hwf)
      · rfl
      · rfl
      · rfl

/-- A seeded `MT.NEXT` is due no failure. -/
theorem statusDue_mtNext_eq_ok {s : State} :
    statusDue s (.command .mtNext) = .ok ↔ s.seeded = true := by
  rw [statusDue_of_needsSeed rfl rfl]
  cases s.seeded <;> simp

/-- The one stop of log entry 7. -/
theorem exec_eq_fault_iff {i : Instr} {s : State} {f : Fault} :
    exec i s = .fault f ↔
      i = .mtNext ∧ s.seeded = true ∧ 624 ≤ s.idx.toNat ∧ f = .mtIndexOutOfRange := by
  rw [exec_eq]
  split_ifs with hdue hstop
  · refine iff_of_false failed_ne_fault ?_
    rintro ⟨rfl, hs, -⟩
    exact hdue (statusDue_mtNext_eq_ok.2 hs)
  · obtain ⟨rfl, hidx⟩ := hstop
    have hs : s.seeded = true := statusDue_mtNext_eq_ok.1 (not_not.1 hdue)
    simp [hs, hidx]
  · exact iff_of_false done_ne_fault fun ⟨hi, _, hidx, _⟩ => hstop ⟨hi, hidx⟩

theorem exec_ne_refused (i : Instr) (s : State) (r : Refusal) : exec i s ≠ .refused r := by
  rw [exec_eq]
  split_ifs
  · exact failed_ne_refused
  · simp
  · exact done_ne_refused

/-- Settles O14: of the three outcomes in `exec_eq` one is a stop. -/
theorem onlyStopIsCursorOutOfRange : Obligations.OnlyStopIsCursorOutOfRange :=
  ⟨fun _ _ _ => exec_eq_fault_iff, exec_ne_refused⟩

end Sys2Proof.Machine
end

section
/-! ## The channels do not matter to a command

A command reads neither the response on offer nor the host's acts nor the responses delivered (log
entries 1 and 2), and it changes the first alone. -/

namespace Sys2Proof.Machine

/-- The block of `s` with other channels. -/
def State.atPort (s : State) (o : Option Response) (acts : List HostAct) (ds : List Response) : State :=
  { s with rsp := o, host := acts, delivered := ds }

section
variable (s : State) (o : Option Response) (acts : List HostAct) (ds : List Response)

@[simp] theorem State.atPort_idx : (s.atPort o acts ds).idx = s.idx := rfl

@[simp] theorem statusDue_atPort (c : Decoded) : statusDue (s.atPort o acts ds) c = statusDue s c := rfl

@[simp] theorem effect_atPort (i : Instr) :
    effect i (s.atPort o acts ds) = (effect i s).atPort o acts ds := by
  cases i <;> rfl

@[simp] theorem answer_atPort (i : Instr) : answer i (s.atPort o acts ds) = answer i s := by
  cases i <;> rfl

end

/-- With other channels a command answers the same response and makes the same change. -/
theorem exec_atPort {i : Instr} {s t : State} (h : exec i s = .next t) (o : Option Response)
    (acts : List HostAct) (ds : List Response) :
    exec i (s.atPort o acts ds) = .next (t.atPort t.rsp acts ds) := by
  rw [exec_eq] at h ⊢
  simp only [statusDue_atPort, State.atPort_idx, effect_atPort, answer_atPort]
  split_ifs at h ⊢
  · rw [← failed_eq_next.1 h]
    rfl
  · rw [← done_eq_next.1 h]
    rfl

/-! ### Read commands (R55) -/

/-- Settles O21: a read's effect is none, and what it changes, the response, no command reads. -/
theorem readsHaveNoSideEffect : Obligations.ReadsHaveNoSideEffect := by
  intro i s t d hread h hok
  have heffect : effect i s = s := by
    obtain rfl | ⟨r, rfl⟩ | ⟨k, rfl⟩ | ⟨r, rfl⟩ := hread <;> rfl
  have ht : t = s.respond .ok d := by
    obtain ⟨c, hc, rfl⟩ | ⟨e, rfl⟩ := exec_cases h
    · simp [hc] at hok
    · have hed : e = d := by simpa using hok
      rw [heffect, hed]
  subst ht
  exact ⟨rfl, exec_atPort h (some ⟨.ok, d⟩) s.host s.delivered⟩

end Sys2Proof.Machine
end

section
/-! ## Steps and sessions -/

namespace Sys2Proof.Machine

theorem step_command {s : State} {w : Cmd} {rest : List HostAct} (h : s.host = .command w :: rest) :
    step s = runCommand w ({ s with host := rest } : State).takeResponse := by
  simp [step, serveNext, h, serve]

theorem step_accept {s : State} {rest : List HostAct} (h : s.host = .accept :: rest) :
    step s = .next ({ s with host := rest } : State).takeResponse := by
  simp [step, serveNext, h, serve]

theorem runCommand_of_command {w : Cmd} {i : Instr} (h : decode w = .command i) (s : State) :
    runCommand w s = exec i s := by
  simp [runCommand, h]

theorem runCommand_of_illegal {w : Cmd} {op : BitVec 8} (h : decode w = .illegal op) (s : State) :
    runCommand w s = .next (s.fail .illegal) := by
  simp [runCommand, h, execIllegal, failed]

/-- Settles O5: a command word is served by the command it decodes to. -/
theorem stepRunsTheDecodedCommand : Obligations.StepRunsTheDecodedCommand := fun _ _ _ h =>
  ⟨fun _ hi => (step_command h).trans (runCommand_of_command hi _),
    fun _ hop => (step_command h).trans (runCommand_of_illegal hop _)⟩

/-- Settles O24: a reset empties the array; `SEED` fills it and a draw twists it, both canonically. -/
theorem stepKeepsTheArrayCanonical : Obligations.StepKeepsTheArrayCanonical :=
  fun _ _ => step_preserves (P := State.ArrayInv) (fun _ _ h => h) (fun s => (afterReset_inv s).array)
    (fun _ _ _ h => h) (fun i _ _ h _ => effect_arrayInv h i)

theorem runCommand_atPort {w : Cmd} {s t : State} (h : runCommand w s = .next t)
    (o : Option Response) (acts : List HostAct) (ds : List Response) :
    runCommand w (s.atPort o acts ds) = .next (t.atPort t.rsp acts ds) := by
  obtain ⟨op, hop, rfl⟩ | ⟨i, hi, hexec⟩ := runCommand_cases h
  · rw [runCommand_of_illegal hop]
    rfl
  · rw [runCommand_of_command hi, exec_atPort hexec o acts ds]

/-- The machine with the words `ws` and a last acceptance before it goes through the session of `ws`,
whatever response `o` it still has to transfer. -/
theorem run_atPort_of_session {ws : List Cmd} {s u : State} {rs : List Response}
    (h : session ws s = some (u, rs)) (o : Option Response) (ds : List Response) :
    Sys2Proof.core.run (ws.length + 1) (s.atPort o (ws.map HostAct.command ++ [.accept]) ds) =
      .next (u.atPort none [] (ds ++ o.toList ++ rs)) := by
  induction ws generalizing s o ds rs with
  | nil =>
    obtain ⟨rfl, rfl⟩ : s = u ∧ [] = rs := by simpa using h
    have hstep : step (s.atPort o [.accept] ds) = .next (s.atPort none [] (ds ++ o.toList)) :=
      step_accept rfl
    simp [Host.Core.run, Sys2Proof.core, hstep]
  | cons w ws ih =>
    obtain ⟨t, r, rs', hrun, hr, hs, rfl⟩ := session_cons_cases h
    have hstep : step (s.atPort o (.command w :: (ws.map .command ++ [.accept])) ds) =
        .next (t.atPort (some r) (ws.map .command ++ [.accept]) (ds ++ o.toList)) := by
      rw [← hr]
      exact (step_command rfl).trans (runCommand_atPort hrun none _ _)
    have hrest := ih hs (some r) (ds ++ o.toList)
    simpa [Host.Core.run, Sys2Proof.core, hstep] using hrest

/-- Settles O12: by induction over the words, the response of each command waiting at the port for the
next act. -/
theorem runDeliversTheSession : Obligations.RunDeliversTheSession := by
  intro ws s u rs hnone h
  have hrun := run_atPort_of_session h none s.delivered
  simpa [State.atPort, hnone] using hrun

end Sys2Proof.Machine
end
section
/-! ## The decoder by its cases (R74 to R79, R82)

`decodeFields_cases` says once what a decoded word is; the agreement with the encoder and the illegal
opcodes are read off it. -/

namespace Sys2Proof

/-- The eleven opcodes of R77. -/
abbrev assignedOpcodes : List (BitVec 8) :=
  [0x00#8, 0x01#8, 0x02#8, 0x10#8, 0x11#8, 0x20#8, 0x21#8, 0x22#8, 0x30#8, 0x31#8, 0x32#8]

theorem opcode_mem_assignedOpcodes (i : Instr) : i.opcode ∈ assignedOpcodes := by
  cases i <;> simp [Instr.opcode]

/-- The two fields are an encoding of `i`: its opcode, and its operand if it takes one. -/
def Encodes (op : BitVec 8) (data : Word) (i : Instr) : Prop :=
  op = i.opcode ∧ ∀ d, i.operand = some d → data = d

theorem encodes_operand (i : Instr) : Encodes i.opcode (i.operand.getD 0) i :=
  ⟨rfl, fun d hd => by simp [hd]⟩

theorem decodeFields_of_encodes {op : BitVec 8} {data : Word} {i : Instr} (h : Encodes op data i) :
    decodeFields op data = .command i := by
  obtain ⟨rfl, hdata⟩ := h
  cases i with
  | seed d | sysRd d | mtRd d | stPush d | stRd d => rw [hdata d rfl]; rfl
  | _ => rfl

/-- Two fields encode the command they decode to, or the opcode is unassigned. -/
theorem decodeFields_cases (op : BitVec 8) (data : Word) :
    (∃ i, decodeFields op data = .command i ∧ Encodes op data i) ∨
      (decodeFields op data = .illegal op ∧ op ∉ assignedOpcodes) := by
  by_cases hop : op ∈ assignedOpcodes
  · left
    have hcmd : ∃ i, Encodes op data i := by
      simp only [List.mem_cons, List.not_mem_nil, or_false] at hop
      obtain rfl | rfl | rfl | rfl | rfl | rfl | rfl | rfl | rfl | rfl | rfl := hop
      exacts [⟨.nop, rfl, nofun⟩, ⟨.seed data, rfl, fun _ => Option.some.inj⟩,
        ⟨.sysRd data, rfl, fun _ => Option.some.inj⟩, ⟨.lcgNext, rfl, nofun⟩, ⟨.lcgRd, rfl, nofun⟩,
        ⟨.mtStart, rfl, nofun⟩, ⟨.mtNext, rfl, nofun⟩,
        ⟨.mtRd data, rfl, fun _ => Option.some.inj⟩, ⟨.stClr, rfl, nofun⟩,
        ⟨.stPush data, rfl, fun _ => Option.some.inj⟩, ⟨.stRd data, rfl, fun _ => Option.some.inj⟩]
    obtain ⟨i, hi⟩ := hcmd
    exact ⟨i, decodeFields_of_encodes hi, hi⟩
  · right
    refine ⟨?_, hop⟩
    simp only [List.mem_cons, List.not_mem_nil, or_false, not_or] at hop
    simp [decodeFields, hop]

theorem decodeFields_eq_command_iff {op : BitVec 8} {data : Word} {i : Instr} :
    decodeFields op data = .command i ↔ Encodes op data i := by
  refine ⟨fun h => ?_, decodeFields_of_encodes⟩
  obtain ⟨j, hj, henc⟩ | ⟨hill, -⟩ := decodeFields_cases op data
  · obtain rfl : j = i := Decoded.command.inj (hj.symm.trans h)
    exact henc
  · cases hill.symm.trans h

theorem decodeFields_eq_illegal_iff {op : BitVec 8} {data : Word} :
    decodeFields op data = .illegal op ↔ op ∉ assignedOpcodes := by
  obtain ⟨i, hi, rfl, -⟩ | ⟨hill, hop⟩ := decodeFields_cases op data
  · simp only [hi, reduceCtorEq, false_iff, not_not]
    exact opcode_mem_assignedOpcodes i
  · exact iff_of_true hill hop

@[simp] theorem decode_encode (i : Instr) : decode (encode i) = .command i :=
  (decode_append _ _).trans (decodeFields_of_encodes (encodes_operand i))

theorem encode_injective : Function.Injective encode := fun i j h =>
  Decoded.command.inj (by rw [← decode_encode i, ← decode_encode j, h])

/-- Settles O1: the encoding of `i` has `i`'s opcode and operand, and these two are all the decoder
reads. -/
theorem decodeAndEncodeAgree : Obligations.DecodeAndEncodeAgree :=
  ⟨decode_encode, fun _ _ h => encode_injective h, fun _ _ => decodeFields_eq_command_iff⟩

/-- Settles O2: `decodeFields` rejects an opcode exactly when it is none of the eleven. -/
theorem unassignedOpcodesAreIllegal : Obligations.UnassignedOpcodesAreIllegal := by
  have hill (op : BitVec 8) (d : Word) : decode (op ++ d) = .illegal op ↔ op ∉ assignedOpcodes := by
    rw [decode_append, decodeFields_eq_illegal_iff]
  refine ⟨hill, fun w => ?_, ?_⟩
  · obtain ⟨i, hi, -⟩ | ⟨hop, -⟩ := decodeFields_cases (opField w) (dataField w)
    · exact .inl ⟨i, hi⟩
    · exact .inr hop
  · simp only [hill]
    decide +kernel

/-- Settles O3: twelve words, decoded. -/
theorem printedWordsDecode : Obligations.PrintedWordsDecode := by
  unfold Obligations.PrintedWordsDecode
  decide

end Sys2Proof
end

section
/-! ## The response of every command word (R70 to R75) -/

namespace Sys2Proof.Machine

/-- With the cursor in range no command stops the machine. -/
theorem exec_answers (i : Instr) {s : State} (h : s.IdxInv) : ∃ t, exec i s = .next t := by
  cases hexec : exec i s with
  | next t => exact ⟨t, rfl⟩
  | fault f =>
    obtain ⟨-, -, hidx, -⟩ := exec_eq_fault_iff.1 hexec
    exact absurd h (not_lt.2 hidx)
  | refused r => exact absurd hexec (exec_ne_refused i s r)

theorem runCommand_answers (w : Cmd) {s : State} (h : s.IdxInv) : ∃ t, runCommand w s = .next t := by
  cases hw : decode w with
  | command i => simpa only [runCommand_of_command hw] using exec_answers i h
  | illegal op => exact ⟨_, runCommand_of_illegal hw s⟩

theorem exec_rsp {i : Instr} {s t : State} (h : exec i s = .next t) :
    (∃ c, c ≠ .ok ∧ t.rsp = some ⟨c, 0⟩) ∨ t.rsp = some ⟨.ok, answer i s⟩ := by
  rw [exec_eq] at h
  split_ifs at h with hdue
  · exact .inl ⟨_, hdue, by simp [← failed_eq_next.1 h]⟩
  · exact .inr (by simp [← done_eq_next.1 h])

/-- A command word that is answered leaves a failure's response, or its command's answer. -/
theorem runCommand_rsp {w : Cmd} {s t : State} (h : runCommand w s = .next t) :
    (∃ c, c ≠ .ok ∧ t.rsp = some ⟨c, 0⟩) ∨
      (∃ i, decode w = .command i ∧ t.rsp = some ⟨.ok, answer i s⟩) := by
  obtain ⟨op, -, rfl⟩ | ⟨i, hi, hexec⟩ := runCommand_cases h
  · exact .inl ⟨.illegal, by simp, rfl⟩
  · exact (exec_rsp hexec).imp_right fun hrsp => ⟨i, hi, hrsp⟩

theorem runCommand_host_delivered {w : Cmd} {s t : State} (h : runCommand w s = .next t) :
    t.host = s.host ∧ t.delivered = s.delivered := by
  obtain ⟨op, -, rfl⟩ | ⟨i, -, hexec⟩ := runCommand_cases h
  · exact ⟨rfl, rfl⟩
  · exact ⟨exec_keeps (·.host) hexec (fun _ => rfl) fun _ => effect_host i s,
      exec_keeps (·.delivered) hexec (fun _ => rfl) fun _ => effect_delivered i s⟩

/-- Settles O9: the step transfers the response on offer and runs the command, which touches neither the
acts nor the record. -/
theorem everyCommandGetsOneResponse : Obligations.EveryCommandGetsOneResponse := by
  intro s w rest hidx hhost
  obtain ⟨t, hrun⟩ := runCommand_answers w (s := ({ s with host := rest } : State).takeResponse) hidx
  obtain ⟨hacts, hdelivered⟩ := runCommand_host_delivered hrun
  have hrsp : ∃ r, t.rsp = some r := by
    obtain ⟨c, -, hr⟩ | ⟨i, -, hr⟩ := runCommand_rsp hrun
    · exact ⟨_, hr⟩
    · exact ⟨_, hr⟩
  obtain ⟨r, hr⟩ := hrsp
  exact ⟨t, r, (step_command hhost).trans hrun, hr, hdelivered, hacts⟩

theorem step_reset {s : State} {rest : List HostAct} (h : s.host = .reset :: rest) :
    step s = .next ({ s with host := rest } : State).afterReset := by
  simp [step, serveNext, h, serve]

/-- Settles O10: a command leaves a response on offer; an acceptance and a reset leave none. -/
theorem portIsHeldUntilTheResponse : Obligations.PortIsHeldUntilTheResponse := by
  refine ⟨fun s w rest hidx hhost => ?_, fun s rest hhost => ?_⟩
  · obtain ⟨t, r, hstep, hr, -⟩ := everyCommandGetsOneResponse s w rest hidx hhost
    exact ⟨t, hstep, by simp [State.cmdReady, hr], by simp [State.rspValid, hr]⟩
  · obtain hhost | hhost := hhost
    · exact ⟨_, step_accept hhost, rfl, rfl⟩
    · exact ⟨_, step_reset hhost, rfl, rfl⟩

/-! ### The 36 bits of a response (R75) -/

@[simp] theorem Response.bits_status (r : Response) : r.bits.extractLsb' 32 4 = r.status.code := by
  rw [Response.bits, BitVec.extractLsb'_append_eq_left]

@[simp] theorem Response.bits_data (r : Response) : r.bits.extractLsb' 0 32 = r.data := by
  rw [Response.bits, BitVec.extractLsb'_append_eq_right]

theorem Status.code_le_four (c : Status) : c.code.toNat ≤ 4 := by
  cases c <;> decide

/-- The commands that return nothing answer 0. -/
theorem answer_eq_zero {i : Instr} (s : State)
    (h : i = .nop ∨ (∃ v, i = .seed v) ∨ i = .mtStart ∨ i = .stClr ∨ (∃ v, i = .stPush v)) :
    answer i s = 0 := by
  obtain rfl | ⟨v, rfl⟩ | rfl | rfl | ⟨v, rfl⟩ := h <;> rfl

/-- Settles O11: the layout is the response's own, and the data is 0 or the command's answer. -/
theorem responsesAreWellFormed : Obligations.ResponsesAreWellFormed := by
  intro w s t h
  obtain ⟨c, -, hrsp⟩ | ⟨i, hi, hrsp⟩ := runCommand_rsp h
  · exact ⟨_, hrsp, by simp, by simp [Status.code_le_four], by simp, fun _ => rfl, fun _ _ _ => rfl⟩
  · refine ⟨_, hrsp, by simp, by simp [Status.code_le_four], by simp, fun hne => absurd rfl hne, ?_⟩
    intro j hj hnothing
    obtain rfl : i = j := Decoded.command.inj (hi.symm.trans hj)
    exact answer_eq_zero s hnothing

end Sys2Proof.Machine
end

section
/-! ## Generation calls (R84, R85) -/

namespace Sys2Proof.Machine

/-- A session goes on with another one from the state it leaves. -/
theorem session_append {ws ws' : List Cmd} {s u v : State} {rs rs' : List Response}
    (h : session ws s = some (u, rs)) (h' : session ws' u = some (v, rs')) :
    session (ws ++ ws') s = some (v, rs ++ rs') := by
  induction ws generalizing s rs with
  | nil =>
    obtain ⟨rfl, rfl⟩ : s = u ∧ [] = rs := by simpa using h
    exact h'
  | cons w ws ih =>
    obtain ⟨t, r, rest, hrun, hr, hs, rfl⟩ := session_cons_cases h
    exact session_cons hrun hr (ih hs)

/-- One command that succeeds, as a session. -/
theorem session_encode {i : Instr} {s : State} {d : Word}
    (h : exec i s = done (effect i s) d) :
    session [encode i] s = some ((effect i s).respond .ok d, [⟨.ok, d⟩]) :=
  session_cons ((runCommand_of_command (decode_encode i) s).trans h) rfl (session_nil _)

/-! ### `LCG.GEN` -/

theorem exec_lcgNext_of_seeded {s : State} (h : s.seeded = true) :
    exec .lcgNext s = done (effect .lcgNext s) (lcgStep s.x) := whenSeeded_of_seeded h _

/-- `LCG.GEN n` responds with the next `n` words, and `n + m` draws go on where `n` draws ended. -/
theorem session_lcgGen (n : Nat) {s : State} (h : s.seeded = true) :
    ∃ u, session ((lcgGen n).map encode) s =
        some (u, (List.range n).map fun k => ⟨.ok, lcgStep^[k + 1] s.x⟩) ∧
      u.seeded = true ∧ u.x = lcgStep^[n] s.x := by
  induction n with
  | zero => exact ⟨s, rfl, h, rfl⟩
  | succ n ih =>
    obtain ⟨u, hs, hu, hx⟩ := ih
    have hnext := session_append hs (session_encode (exec_lcgNext_of_seeded hu))
    refine ⟨(effect .lcgNext u).respond .ok (lcgStep u.x), ?_, hu, ?_⟩
    · simpa [lcgGen, List.replicate_succ', List.range_succ, hx, Function.iterate_succ_apply'] using hnext
    · simp [effect, hx, Function.iterate_succ_apply']

/-- Settles O39: the commands of the two calls are those of the one, so their sessions are. -/
theorem lcgGenConcatenates : Obligations.LcgGenConcatenates := by
  refine ⟨rfl, fun n m s h => ?_⟩
  obtain ⟨u, hs, hu, -⟩ := session_lcgGen n h
  obtain ⟨v, hs', -⟩ := session_lcgGen m hu
  refine ⟨u, v, _, _, hs, hs', ?_, rfl⟩
  rw [lcgGen, List.replicate_add, List.map_append]
  exact session_append hs hs'

/-! ### `MT.GEN` -/

theorem exec_mtStart_of_seeded {s : State} (h : s.seeded = true) :
    exec .mtStart s = done (effect .mtStart s) 0 := whenSeeded_of_seeded h _

theorem exec_mtNext_of_seeded {s : State} (h : s.seeded = true) (hidx : s.IdxInv) :
    exec .mtNext s = done (effect .mtNext s) (temper ((drawArray s).read s.idx.toNat)) := by
  rw [exec_eq, if_neg (not_not.2 (statusDue_mtNext_eq_ok.2 h)), if_neg fun hi => not_le.2 hidx hi.2]
  rfl

/-- The cursor after a draw, as a number (R112). -/
theorem nextIdx_toNat {idx : BitVec 10} (h : idx.toNat < 624) :
    (nextIdx idx).toNat = (idx.toNat + 1) % 624 := by
  unfold nextIdx
  split
  · next hidx => simp [hidx]
  · next hidx =>
    have hne : idx.toNat ≠ 623 := fun he => hidx (BitVec.eq_of_toNat_eq (by simpa using he))
    simp
    omega

/-- What `n` draws after `MT.START` leave of an array `m` (R117): one twist for every 624 words begun. -/
structure DrawnFrom (m : Memory) (x : Word) (n : Nat) (u : State) : Prop where
  seeded : u.seeded = true
  mt : u.mt = twist^[(n + 623) / 624] m
  idx : u.idx.toNat = n % 624
  x : u.x = x

section
variable {m : Memory} {x : Word} {n : Nat} {u : State} (h : DrawnFrom m x n u)
include h

theorem DrawnFrom.idxInv : u.IdxInv := by
  have := h.idx
  unfold State.IdxInv
  omega

/-- Draw `n` reads the array twisted `n / 624 + 1` times: it twists exactly when `n` is a multiple of
624. -/
theorem DrawnFrom.drawArray_eq : drawArray u = twist^[n / 624 + 1] m := by
  have hzero : u.idx = 0 ↔ n % 624 = 0 := by
    rw [← h.idx, ← BitVec.toNat_inj]
    rfl
  unfold drawArray
  rw [h.mt]
  split
  · next hidx =>
    have hcount : (n + 623) / 624 = n / 624 := by have := hzero.1 hidx; omega
    rw [hcount, Function.iterate_succ_apply']
  · next hidx =>
    have hcount : (n + 623) / 624 = n / 624 + 1 := by
      have hne : n % 624 ≠ 0 := fun h0 => hidx (hzero.2 h0)
      omega
    rw [hcount]

theorem DrawnFrom.draw (d : Word) : DrawnFrom m x (n + 1) ((effect .mtNext u).respond .ok d) where
  seeded := h.seeded
  mt := by
    have hcount : (n + 1 + 623) / 624 = n / 624 + 1 := by omega
    rw [hcount]
    exact h.drawArray_eq
  idx := by
    have hidx : (nextIdx u.idx).toNat = (n + 1) % 624 := by rw [nextIdx_toNat h.idxInv, h.idx]; omega
    exact hidx
  x := h.x

end

theorem session_mtGen (n : Nat) {s : State} (h : s.seeded = true) :
    ∃ u, session ((mtGen n).map encode) s =
        some (u, ⟨.ok, 0⟩ ::
          (List.range n).map fun k => ⟨.ok, temper ((twist^[k / 624 + 1] s.mt).read (k % 624))⟩) ∧
      DrawnFrom s.mt s.x n u := by
  induction n with
  | zero => exact ⟨_, session_encode (exec_mtStart_of_seeded h), h, rfl, rfl, rfl⟩
  | succ n ih =>
    obtain ⟨u, hs, hu⟩ := ih
    have hnext := session_append hs (session_encode (exec_mtNext_of_seeded hu.seeded hu.idxInv))
    refine ⟨_, ?_, hu.draw (temper ((drawArray u).read u.idx.toNat))⟩
    simpa [mtGen, List.replicate_succ', List.range_succ, hu.drawArray_eq, hu.idx] using hnext

/-- Settles O46: by induction over the draws, `DrawnFrom` being what each of them keeps. -/
theorem mtGenDrawsFromSuccessiveTwists : Obligations.MtGenDrawsFromSuccessiveTwists := by
  intro n s h
  obtain ⟨u, hs, hu⟩ := session_mtGen n h
  exact ⟨u, hs, hu.mt, hu.idx, hu.x⟩

end Sys2Proof.Machine
end

section
/-! ## The assembler (R83, log entry 16) -/

namespace Sys2Proof

/-! ### Digits and numerals -/

/-- `c` is the digit `k` of base `base`, a letter in either case, as in `Machine.IsNumeral`. -/
abbrev IsDigit (base : Nat) (c : Char) (k : Nat) : Prop :=
  k < base ∧ (c = Nat.digitChar k ∨ c = (Nat.digitChar k).toUpper)

theorem digitValue_digitChar :
    ∀ k < 16, digitValue 16 (Nat.digitChar k) = some k ∧
      digitValue 16 (Nat.digitChar k).toUpper = some k := by
  decide

/-- A digit of a smaller base is a hexadecimal digit whose value is below that base. -/
theorem digitValue_eq_filter {base : Nat} (hbase : base ≤ 16) (c : Char) :
    digitValue base c = (digitValue 16 c).filter (· < base) := by
  simp only [digitValue, Option.filter_filter]
  congr 1
  funext v
  simp only [← Bool.decide_and, decide_eq_decide]
  omega

theorem IsDigit.digitValue_sixteen {base : Nat} {c : Char} {k : Nat} (hbase : base ≤ 16)
    (h : IsDigit base c k) : digitValue 16 c = some k := by
  obtain ⟨hk, hc⟩ := h
  obtain ⟨hlower, hupper⟩ := digitValue_digitChar k (by omega)
  obtain rfl | rfl := hc
  · exact hlower
  · exact hupper

theorem IsDigit.digitValue_eq {base : Nat} {c : Char} {k : Nat} (hbase : base ≤ 16)
    (h : IsDigit base c k) : digitValue base c = some k := by
  rw [digitValue_eq_filter hbase, h.digitValue_sixteen hbase]
  simp [h.1]

theorem numeralFrom_of_digits {base : Nat} (hbase : base ≤ 16) {cs : List Char} {ds : List Nat}
    (h : List.Forall₂ (IsDigit base) cs ds) (acc : Nat) :
    numeralFrom base acc cs = some (ds.foldl (fun a k => base * a + k) acc) := by
  induction h generalizing acc with
  | nil => rfl
  | cons hc _ ih => simp [numeralFrom, hc.digitValue_eq hbase, ih]

/-- The assembler reads a numeral as its value. -/
theorem numeral_of_isNumeral {base v : Nat} {cs : List Char} (hbase : base ≤ 16)
    (h : Machine.IsNumeral base cs v) : numeral base cs = some v := by
  obtain ⟨ds, hne, hds, rfl⟩ := h
  have hread := numeralFrom_of_digits hbase hds 0
  cases hds with
  | nil => exact absurd rfl hne
  | cons => exact hread

/-- One more digit on the right. -/
theorem isNumeral_append_digit {base v k : Nat} {cs : List Char} (h : Machine.IsNumeral base cs v)
    (hk : k < base) : Machine.IsNumeral base (cs ++ [Nat.digitChar k]) (base * v + k) := by
  obtain ⟨ds, -, hds, rfl⟩ := h
  exact ⟨ds ++ [k], by simp, List.rel_append hds (.cons ⟨hk, .inl rfl⟩ .nil), by simp⟩

theorem isNumeral_digit {base k : Nat} (hk : k < base) :
    Machine.IsNumeral base [Nat.digitChar k] k :=
  ⟨[k], by simp, .cons ⟨hk, .inl rfl⟩ .nil, by simp⟩

/-- Every number has a numeral, the one `Nat.toDigits` writes. -/
theorem isNumeral_toDigits {base : Nat} (hbase : 1 < base) (v : Nat) :
    Machine.IsNumeral base (Nat.toDigits base v) v := by
  induction v using Nat.strong_induction_on with
  | _ v ih =>
    by_cases hv : v < base
    · rw [Nat.toDigits_of_lt_base hv]
      exact isNumeral_digit hv
    · rw [Nat.toDigits_of_base_le hbase (by omega)]
      have hquot := ih (v / base) (Nat.div_lt_self (by omega) hbase)
      simpa [Nat.div_add_mod] using isNumeral_append_digit hquot (Nat.mod_lt v (by omega))

/-! ### Operands -/

/-- The characters of a numeral are none of those that separate words or mark the base. -/
theorem not_mem_of_isNumeral {base v : Nat} {cs : List Char} (hbase : base ≤ 16)
    (h : Machine.IsNumeral base cs v) {c : Char} (hc : digitValue 16 c = none) : c ∉ cs := by
  obtain ⟨ds, -, hds, -⟩ := h
  induction hds with
  | nil => exact List.not_mem_nil
  | @cons a k as ks hk _ ih =>
    have hca : c ≠ a := by
      rintro rfl
      simp [IsDigit.digitValue_sixteen hbase hk] at hc
    simp [hca, ih]

theorem asmOperand_hex (hs : List Char) :
    asmOperand ('0' :: 'x' :: hs) =
      ((numeral 16 hs).filter (fun v => v < 2 ^ 32)).map (BitVec.ofNat 32) := rfl

theorem asmOperand_decimal {cs : List Char} (h : 'x' ∉ cs) :
    asmOperand cs = ((numeral 10 cs).filter (fun v => v < 2 ^ 32)).map (BitVec.ofNat 32) := by
  unfold asmOperand
  split
  · simp at h
  · rfl

/-- An operand is read as its value, and refused above `2^32 - 1`. -/
theorem asmOperand_of_isOperand {cs : List Char} {v : Nat} (h : Machine.IsOperand cs v) :
    asmOperand cs = if v < 2 ^ 32 then some (BitVec.ofNat 32 v) else none := by
  obtain hdec | ⟨hs, rfl, hhex⟩ := h
  · rw [asmOperand_decimal (not_mem_of_isNumeral (by omega) hdec (by decide)),
      numeral_of_isNumeral (by omega) hdec]
    split <;> simp_all
  · rw [asmOperand_hex, numeral_of_isNumeral (by omega) hhex]
    split <;> simp_all

/-! ### Words of a line -/

/-- A word of a line: one character or more, no blank and no comment mark. -/
abbrev IsToken (t : List Char) : Prop := t ≠ [] ∧ ' ' ∉ t ∧ ';' ∉ t

theorem isToken_of_isNumeral {base v : Nat} {cs : List Char} (hbase : base ≤ 16)
    (h : Machine.IsNumeral base cs v) : IsToken cs := by
  refine ⟨?_, not_mem_of_isNumeral hbase h (by decide), not_mem_of_isNumeral hbase h (by decide)⟩
  rintro rfl
  cases numeral_of_isNumeral hbase h

theorem isToken_of_isOperand {cs : List Char} {v : Nat} (h : Machine.IsOperand cs v) :
    IsToken cs := by
  obtain hdec | ⟨hs, rfl, hhex⟩ := h
  · exact isToken_of_isNumeral (by omega) hdec
  · obtain ⟨-, hblank, hmark⟩ := isToken_of_isNumeral (by omega) hhex
    simp [IsToken, hblank, hmark]

theorem asmTokens_of_no_comment {line : List Char} (h : ';' ∉ line) :
    asmTokens line = (line.splitOnP (· == ' ')).filter (· != []) := by
  have hall : line.takeWhile (· != ';') = line :=
    List.takeWhile_eq_self_iff.2 fun c hc => by simpa using fun he : c = ';' => h (he ▸ hc)
  rw [asmTokens, hall]

theorem splitOnP_of_no_blank {t : List Char} (h : ' ' ∉ t) : t.splitOnP (· == ' ') = [t] :=
  List.splitOnP_eq_singleton fun c hc => by simpa using fun he : c = ' ' => h (he ▸ hc)

theorem asmTokens_word {t : List Char} (h : IsToken t) : asmTokens t = [t] := by
  obtain ⟨hne, hblank, hmark⟩ := h
  rw [asmTokens_of_no_comment hmark, splitOnP_of_no_blank hblank]
  simp [hne]

theorem asmTokens_two_words {m t : List Char} (hm : IsToken m) (ht : IsToken t) :
    asmTokens (m ++ ' ' :: t) = [m, t] := by
  obtain ⟨hne, hblank, hmark⟩ := hm
  obtain ⟨hne', hblank', hmark'⟩ := ht
  rw [asmTokens_of_no_comment (by simp [hmark, hmark']), List.splitOnP_append_cons _ _ (by simp),
    splitOnP_of_no_blank hblank, splitOnP_of_no_blank hblank']
  simp [hne, hne']

/-- A comment is no part of a line's words. -/
theorem asmTokens_comment (line comment : List Char) :
    asmTokens (line ++ ';' :: comment) = asmTokens line := by
  have hcut : (line ++ ';' :: comment).takeWhile (· != ';') = line.takeWhile (· != ';') := by
    induction line with
    | nil => rfl
    | cons c cs ih => simp [List.takeWhile_cons, ih]
  rw [asmTokens, hcut, asmTokens]

/-! ### Lines -/

theorem assembleInstr_plain {m : List Char} (hm : IsToken m) : assembleInstr m = asmPlain m := by
  rw [assembleInstr, asmTokens_word hm]

/-- A mnemonic and an operand: the operand is read, and refused above `2^32 - 1`. -/
theorem assembleInstr_operand {m cs : List Char} {v : Nat} (hm : IsToken m)
    (hcs : Machine.IsOperand cs v) :
    assembleInstr (m ++ ' ' :: cs) =
      if v < 2 ^ 32 then asmWithOperand m (BitVec.ofNat 32 v) else none := by
  rw [assembleInstr, asmTokens_two_words hm (isToken_of_isOperand hcs)]
  simp only [asmOperand_of_isOperand hcs]
  split <;> rfl

theorem assembleInstr_of_word {m cs : List Char} {d : Word} (hm : IsToken m)
    (hcs : Machine.IsOperand cs d.toNat) :
    assembleInstr (m ++ ' ' :: cs) = asmWithOperand m d := by
  rw [assembleInstr_operand hm hcs, if_pos d.isLt, BitVec.ofNat_toNat, BitVec.setWidth_eq]

theorem assembleInstr_of_too_large {m cs : List Char} {v : Nat} (hm : IsToken m)
    (hcs : Machine.IsOperand cs v) (hv : 2 ^ 32 ≤ v) : assembleInstr (m ++ ' ' :: cs) = none := by
  rw [assembleInstr_operand hm hcs, if_neg (by omega)]

theorem assemble_eq_some_iff {line : List Char} {w : Cmd} :
    assemble line = some w ↔ ∃ i, assembleInstr line = some i ∧ w = encode i := by
  simp [assemble, eq_comm]

/-- Settles O4: a line splits into its mnemonic and its operand, and a numeral is read as its value. -/
theorem assemblerReadsItsSyntax : Obligations.AssemblerReadsItsSyntax := by
  refine ⟨fun d cs hcs => ?operand, fun v cs hcs hv => ?tooLarge, fun v => ?spellings,
    assembleInstr_plain (by decide), assembleInstr_plain (by decide), assembleInstr_plain (by decide),
    assembleInstr_plain (by decide), assembleInstr_plain (by decide), assembleInstr_plain (by decide),
    fun line comment => ?comment, fun line w => assemble_eq_some_iff, fun line w h => ?decodes⟩
  case operand =>
    exact ⟨assembleInstr_of_word (m := ['S', 'E', 'E', 'D']) (by decide) hcs,
      assembleInstr_of_word (m := ['S', 'Y', 'S', '.', 'R', 'D']) (by decide) hcs,
      assembleInstr_of_word (m := ['M', 'T', '.', 'R', 'D']) (by decide) hcs,
      assembleInstr_of_word (m := ['S', 'T', '.', 'P', 'U', 'S', 'H']) (by decide) hcs,
      assembleInstr_of_word (m := ['S', 'T', '.', 'R', 'D']) (by decide) hcs⟩
  case tooLarge =>
    exact ⟨assembleInstr_of_too_large (m := ['S', 'E', 'E', 'D']) (by decide) hcs hv,
      assembleInstr_of_too_large (m := ['S', 'Y', 'S', '.', 'R', 'D']) (by decide) hcs hv,
      assembleInstr_of_too_large (m := ['M', 'T', '.', 'R', 'D']) (by decide) hcs hv,
      assembleInstr_of_too_large (m := ['S', 'T', '.', 'P', 'U', 'S', 'H']) (by decide) hcs hv,
      assembleInstr_of_too_large (m := ['S', 'T', '.', 'R', 'D']) (by decide) hcs hv⟩
  case spellings =>
    exact ⟨.inl (isNumeral_toDigits (by omega) v), .inr ⟨_, rfl, isNumeral_toDigits (by omega) v⟩⟩
  case comment => rw [assembleInstr, asmTokens_comment, assembleInstr]
  case decodes =>
    obtain ⟨i, hi, rfl⟩ := assemble_eq_some_iff.1 h
    exact ⟨i, hi, decode_encode i⟩

end Sys2Proof
end

section
/-! ## Decoding a word written as its two fields (R74) -/

namespace Sys2Proof

theorem decode_of_encodes {op : BitVec 8} {data : Word} {i : Instr} (h : Encodes op data i) :
    decode (op ++ data) = .command i :=
  (decode_append op data).trans (decodeFields_of_encodes h)

end Sys2Proof
end

section
/-! ## Units that ignore each other (R94, R138)

A command ignores a part of the state when replacing that part before it gives the same outcome with the
part replaced after it. By `exec_eq` it is enough that the failure due, the data and the effect do. -/

namespace Sys2Proof.Machine

/-- The change `f` of the state makes no difference to `i` from `s`: the same failure is due, `MT.NEXT`
finds the same cursor, the data is the same, and the effect, a response and the latch commute with `f`. -/
structure Ignores (i : Instr) (f : State → State) (s : State) : Prop where
  due : statusDue (f s) (.command i) = statusDue s (.command i)
  cursor : i = .mtNext → (f s).idx = s.idx
  data : answer i (f s) = answer i s
  change : effect i (f s) = f (effect i s)
  respond : ∀ (t : State) (st : Status) (d : Word), (f t).respond st d = f (t.respond st d)
  latch : ∀ (t : State) (c : Status), (f t).latch c = f (t.latch c)

theorem Ignores.exec_eq_mapNext {i : Instr} {f : State → State} {s : State} (h : Ignores i f s) :
    exec i (f s) = mapNext f (exec i s) := by
  have hstop : (i = .mtNext ∧ 624 ≤ (f s).idx.toNat) ↔ (i = .mtNext ∧ 624 ≤ s.idx.toNat) :=
    and_congr_right fun hi => by rw [h.cursor hi]
  rw [exec_eq, exec_eq i s, h.due, h.data, h.change]
  simp only [hstop]
  split_ifs
  · simp [failed, State.fail, mapNext, h.latch, h.respond]
  · rfl
  · simp [done, mapNext, h.respond]

section
variable {i : Instr} (s g : State)

theorem ignores_withGenerators (hi : i = .stClr ∨ (∃ w, i = .stPush w) ∨ (∃ r, i = .stRd r)) :
    Ignores i (·.withGenerators g) s := by
  obtain rfl | ⟨w, rfl⟩ | ⟨r, rfl⟩ := hi <;>
    exact ⟨rfl, nofun, rfl, rfl, fun _ _ _ => rfl, fun _ _ => rfl⟩

theorem ignores_withAccumulator (hclr : i ≠ .stClr) (hpush : ∀ w, i ≠ .stPush w)
    (hrd : ∀ r, i ≠ .stRd r) : Ignores i (·.withAccumulator g) s := by
  cases i with
  | stClr => exact absurd rfl hclr
  | stPush w => exact absurd rfl (hpush w)
  | stRd r => exact absurd rfl (hrd r)
  | _ => exact ⟨rfl, fun _ => rfl, rfl, rfl, fun _ _ _ => rfl, fun _ _ => rfl⟩

theorem ignores_withMtUnit (hi : i = .lcgNext ∨ i = .lcgRd) : Ignores i (·.withMtUnit g) s := by
  obtain rfl | rfl := hi <;> exact ⟨rfl, nofun, rfl, rfl, fun _ _ _ => rfl, fun _ _ => rfl⟩

theorem ignores_withLcgUnit (hi : i = .mtStart ∨ i = .mtNext ∨ (∃ k, i = .mtRd k)) :
    Ignores i (·.withLcgUnit g) s := by
  obtain rfl | rfl | ⟨k, rfl⟩ := hi <;>
    exact ⟨rfl, fun _ => rfl, rfl, rfl, fun _ _ _ => rfl, fun _ _ => rfl⟩

end

/-- Settles O22: each group of commands ignores the units it is said to. -/
theorem stLcgMtCommandsIgnoreEachOthersState : Obligations.StLcgMtCommandsIgnoreEachOthersState :=
  ⟨fun _ s g hi => (ignores_withGenerators s g hi).exec_eq_mapNext,
    fun _ s g hclr hpush hrd => (ignores_withAccumulator s g hclr hpush hrd).exec_eq_mapNext,
    fun _ s g hi => (ignores_withMtUnit s g hi).exec_eq_mapNext,
    fun _ s g hi => (ignores_withLcgUnit s g hi).exec_eq_mapNext⟩

end Sys2Proof.Machine
end

section
/-! ## The seeded array (R110) -/

namespace Sys2Proof.Machine

/-- Each word of the seeding list but the first comes from the one before it. -/
theorem mtSeedWords_getD_succ {k j : Nat} (hj : j < k) (i : Nat) (p : Word) :
    (mtSeedWords k i p).getD (j + 1) Memory.unlisted =
      mtSeedNext ((mtSeedWords k i p).getD j Memory.unlisted) (i + j + 1) := by
  induction k generalizing i j p with
  | zero => omega
  | succ k ih =>
    cases j with
    | zero => cases k <;> rfl
    | succ j =>
      have hnext := ih (Nat.lt_of_succ_lt_succ hj) (i + 1) (mtSeedNext p (i + 1))
      rwa [Nat.add_right_comm i 1 j] at hnext

theorem read_mtSeed (v : Word) (i : Nat) :
    (mtSeed v).read i = (mtSeedWords 623 0 v).getD i Memory.unlisted := by
  simpa [mtSeed] using Memory.read_ofWords (mtSeedWords 623 0 v) 0 i

theorem read_mtSeed_zero (v : Word) : (mtSeed v).read 0 = v := read_mtSeed v 0

theorem read_mtSeed_succ (v : Word) {i : Nat} (hi : i < 623) :
    (mtSeed v).read (i + 1) = mtSeedNext ((mtSeed v).read i) (i + 1) := by
  rw [read_mtSeed, read_mtSeed, mtSeedWords_getD_succ hi, Nat.zero_add]

end Sys2Proof.Machine
end

section
/-! ## The system commands (R90 to R93) -/

namespace Sys2Proof.Machine

/-- Settles O30: no check stands before `NOP`, and its `data` is not read. -/
theorem nopRespondsOk : Obligations.NopRespondsOk :=
  ⟨fun _ => decode_of_encodes ⟨rfl, nofun⟩, fun _ => rfl⟩

theorem exec_seed (v : Word) (s : State) :
    exec (.seed v) s = .next ((effect (.seed v) s).respond .ok 0) := rfl

/-- Settles O31: the array is `mtSeed v`, which reads as the seeding recurrence says. -/
theorem seedInitializesGenerators : Obligations.SeedInitializesGenerators := by
  refine ⟨fun v => decode_encode (.seed v), fun v s =>
    ⟨mtSeed v, exec_seed v s, wf_mtSeed v, read_mtSeed_zero v, fun i hlow hhigh => ?_⟩⟩
  obtain ⟨i, rfl⟩ := Nat.exists_eq_add_of_le' hlow
  rw [read_mtSeed_succ v (by omega), mtSeedNext, BitVec.toNat_ofNat, Nat.add_sub_cancel]

/-- Settles O32: what `SEED v` writes is a function of `v`. -/
theorem reseedingForgets : Obligations.ReseedingForgets := fun v s s' =>
  ⟨_, _, exec_seed v s, exec_seed v s', rfl, rfl, rfl, rfl, rfl⟩

/-! ### The status word (R29) -/

theorem statusWord_getLsbD_low (s : State) :
    (statusWord s).getLsbD 0 = s.seeded ∧ (statusWord s).getLsbD 1 = s.err ∧
      (statusWord s).getLsbD 2 = false ∧ (statusWord s).getLsbD 3 = false := by
  simp only [statusWord, BitVec.getLsbD_append]
  simp

/-- From bit 4 on there is `ERRCODE` and nothing above it. -/
theorem statusWord_getLsbD_high (s : State) (k : Nat) :
    (statusWord s).getLsbD (4 + k) = s.errcode.getLsbD k := by
  have hk : 4 + k - 1 - 1 - 2 = k := by omega
  simp only [statusWord, BitVec.getLsbD_append, hk]
  rw [if_neg (by omega), if_neg (by omega), if_neg (by omega)]
  split
  · rfl
  · rw [BitVec.getLsbD_zero, BitVec.getLsbD_of_ge s.errcode k (by omega)]

/-! ### `SYS.RD` (R92) -/

theorem exec_sysRd_zero (s : State) : exec (.sysRd 0) s = done s (statusWord s) := rfl

theorem exec_sysRd_one (s : State) : exec (.sysRd 1) s = whenSeeded s (done s s.seed) := rfl

theorem exec_sysRd_two (s : State) :
    exec (.sysRd 2) s = whenSeeded s (done s (s.idx.setWidth 32)) := rfl

theorem exec_sysRd_of_gt {r : Word} (h : 2 < r.toNat) (s : State) :
    exec (.sysRd r) s = failed s .range :=
  exec_of_not_wellFormed (by simpa [Instr.wellFormed] using h) s

theorem exec_sysRd_of_unseeded {r : Word} {s : State} (hr : r = 1 ∨ r = 2) (h : s.seeded = false) :
    exec (.sysRd r) s = failed s .unseeded := by
  obtain rfl | rfl := hr
  · exact (exec_sysRd_one s).trans (whenSeeded_of_unseeded h _)
  · exact (exec_sysRd_two s).trans (whenSeeded_of_unseeded h _)

/-- Settles O33: register by register. -/
theorem sysRdReadsRegisters : Obligations.SysRdReadsRegisters := by
  refine ⟨fun r => decode_encode (.sysRd r), fun r s =>
    ⟨fun hr => exec_sysRd_of_gt hr s, exec_sysRd_of_unseeded, ?status, ?seed, ?cursor⟩⟩
  case status =>
    rintro rfl
    obtain ⟨hseeded, herr, h2, h3⟩ := statusWord_getLsbD_low s
    refine ⟨statusWord s, exec_sysRd_zero s, hseeded, herr,
      fun k _ => statusWord_getLsbD_high s k, h2, h3, fun k hk => ?_⟩
    obtain ⟨j, rfl⟩ := Nat.exists_eq_add_of_le hk
    rw [Nat.add_assoc 4 4 j, statusWord_getLsbD_high]
    exact BitVec.getLsbD_of_ge _ _ (by omega)
  case seed =>
    rintro rfl hs
    exact (exec_sysRd_one s).trans (whenSeeded_of_seeded hs _)
  case cursor =>
    rintro rfl hs
    exact ⟨_, BitVec.toNat_setWidth_of_le (by decide),
      (exec_sysRd_two s).trans (whenSeeded_of_seeded hs _)⟩

end Sys2Proof.Machine
end

section
/-! ## The LCG step (R100 to R104) -/

namespace Sys2Proof.Machine

/-- The step as the exact integer of R100, reduced. -/
theorem lcgStep_toNat (x : Word) :
    (lcgStep x).toNat = (1664525 * x.toNat + 1013904221) % 2 ^ 32 := by
  rw [lcgStep, lcgA, lcgC, BitVec.toNat_ofNat, Nat.add_comm]

/-- The step by a 32-bit multiply and a 32-bit add (R102). -/
theorem lcgStep_eq_mul_add (x : Word) : lcgStep x = 1664525#32 * x + 1013904221#32 := by
  apply BitVec.eq_of_toNat_eq
  rw [lcgStep_toNat, BitVec.toNat_add, BitVec.toNat_mul]
  simp

/-- Settles O35: every form reduces the same product and sum modulo 2^32. -/
theorem lcgArithmeticFormsAgree : Obligations.LcgArithmeticFormsAgree := by
  refine fun x => ⟨by have := x.isLt; omega, lcgStep_eq_mul_add x, ?_, fun k => ?_⟩
  · rw [lcgStep_toNat]
    omega
  · rw [lcgStep_toNat]
    omega

/-- The step backwards (R104): the multiplier is odd, and `4276115653` is its inverse modulo 2^32. -/
def lcgUnstep (w : Word) : Word := 4276115653#32 * (w - 1013904221#32)

theorem lcgUnstep_lcgStep (x : Word) : lcgUnstep (lcgStep x) = x := by
  have hinv : 4276115653#32 * 1664525#32 = 1#32 := by decide
  rw [lcgStep_eq_mul_add, lcgUnstep, BitVec.add_sub_cancel, ← BitVec.mul_assoc, hinv, BitVec.one_mul]

theorem lcgStep_lcgUnstep (w : Word) : lcgStep (lcgUnstep w) = w := by
  have hinv : 1664525#32 * 4276115653#32 = 1#32 := by decide
  rw [lcgStep_eq_mul_add, lcgUnstep, ← BitVec.mul_assoc, hinv, BitVec.one_mul, BitVec.sub_add_cancel]

theorem lcgStep_bijective : Function.Bijective lcgStep :=
  Function.bijective_iff_has_inverse.2 ⟨lcgUnstep, lcgUnstep_lcgStep, lcgStep_lcgUnstep⟩

/-! ### The commands -/

/-- Settles O34: the seeded check stands first, and the step is the exact integer reduced. -/
theorem lcgNextStepsX : Obligations.LcgNextStepsX :=
  ⟨fun _ => decode_of_encodes ⟨rfl, nofun⟩,
    fun _ hs => whenSeeded_of_unseeded hs _,
    fun s hs => ⟨lcgStep s.x, lcgStep_toNat s.x, exec_lcgNext_of_seeded hs⟩⟩

/-- Settles O36: the seeded check stands first, and `LCG.RD` has no effect. -/
theorem lcgRdReadsX : Obligations.LcgRdReadsX :=
  ⟨fun _ => decode_of_encodes ⟨rfl, nofun⟩,
    fun _ hs => whenSeeded_of_unseeded hs _,
    fun _ hs => whenSeeded_of_seeded hs _⟩

theorem exec_lcgNext_rsp_iff {s : State} (hs : s.seeded = true) {w : Word} :
    (∃ t, exec .lcgNext s = .next t ∧ t.rsp = some ⟨.ok, w⟩) ↔ lcgStep s.x = w := by
  simp [exec_lcgNext_of_seeded hs]

/-- A seeded block with a given `X`. -/
def seededWith (x : Word) : State := { State.reset with seeded := true, x := x }

/-- Settles O37: the response is the step of `X`, and the step is a bijection. -/
theorem lcgStepIsBijective : Obligations.LcgStepIsBijective := by
  intro w
  obtain ⟨x, hx, hunique⟩ := lcgStep_bijective.existsUnique w
  refine ⟨x, fun s hs hsx => (exec_lcgNext_rsp_iff hs).2 (hsx ▸ hx), fun y hy => hunique y ?_⟩
  exact (exec_lcgNext_rsp_iff (s := seededWith y) rfl).1 (hy (seededWith y) rfl rfl)

end Sys2Proof.Machine
end

section
/-! ## The LCG stream of a session (R103)

A word that is no `SEED` keeps the block seeded and the cursor in range; it steps `X` and responds with
the new `X` when it is an `LCG.NEXT`, and keeps `X` otherwise. -/

namespace Sys2Proof.Machine

theorem runCommand_exists_rsp {w : Cmd} {s t : State} (h : runCommand w s = .next t) :
    ∃ r, t.rsp = some r := by
  obtain ⟨c, -, hr⟩ | ⟨i, -, hr⟩ := runCommand_rsp h
  · exact ⟨_, hr⟩
  · exact ⟨_, hr⟩

/-- A part `f` of the state is as before a word when a failure and its command's effect both keep it. -/
theorem runCommand_keeps {α : Type} (f : State → α) {w : Cmd} {s t : State}
    (h : runCommand w s = .next t) (hfail : ∀ c, f (s.fail c) = f s)
    (hok : ∀ i, decode w = .command i → ∀ d, f ((effect i s).respond .ok d) = f s) : f t = f s := by
  obtain ⟨op, -, rfl⟩ | ⟨i, hi, hexec⟩ := runCommand_cases h
  · exact hfail .illegal
  · exact exec_keeps f hexec hfail (hok i hi)

section
variable {w : Cmd} {s t : State} (h : runCommand w s = .next t)
include h

theorem runCommand_idxInv (hidx : s.IdxInv) : t.IdxInv := by
  obtain ⟨op, -, rfl⟩ | ⟨i, -, hexec⟩ := runCommand_cases h
  · exact hidx
  · obtain ⟨c, -, rfl⟩ | ⟨d, rfl⟩ := exec_cases hexec
    · exact hidx
    · exact effect_idxInv hidx i

theorem runCommand_seeded (hseed : ∀ v, decode w ≠ .command (.seed v)) : t.seeded = s.seeded :=
  runCommand_keeps (·.seeded) h (fun _ => rfl) fun _ hi _ =>
    (effect_seed_of_ne (fun v hv => hseed v (hv ▸ hi)) s).2

theorem runCommand_x (hseed : ∀ v, decode w ≠ .command (.seed v))
    (hlcg : decode w ≠ .command .lcgNext) : t.x = s.x :=
  runCommand_keeps (·.x) h (fun _ => rfl) fun _ hi _ =>
    effect_x_of_ne (fun v hv => hseed v (hv ▸ hi)) (fun hn => hlcg (hn ▸ hi)) s

theorem runCommand_lcgNext (hw : decode w = .command .lcgNext) (hs : s.seeded = true) :
    t.rsp = some ⟨.ok, lcgStep s.x⟩ ∧ t.x = lcgStep s.x := by
  rw [runCommand_of_command hw, exec_lcgNext_of_seeded hs, done_eq_next] at h
  subst h
  exact ⟨rfl, rfl⟩

end

/-! ### Counting the draws -/

section
variable {w : Cmd} {ws : List Cmd}

theorem lcgDraws_cons_of_eq (h : decode w = .command .lcgNext) :
    lcgDraws (w :: ws) = lcgDraws ws + 1 := by simp [lcgDraws, h]

theorem lcgDraws_cons_of_ne (h : decode w ≠ .command .lcgNext) :
    lcgDraws (w :: ws) = lcgDraws ws := by simp [lcgDraws, h]

theorem lcgResponses_cons_of_eq (h : decode w = .command .lcgNext) (r : Response)
    (rs : List Response) : lcgResponses (w :: ws) (r :: rs) = r :: lcgResponses ws rs := if_pos h

theorem lcgResponses_cons_of_ne (h : decode w ≠ .command .lcgNext) (r : Response)
    (rs : List Response) : lcgResponses (w :: ws) (r :: rs) = lcgResponses ws rs := if_neg h

end

/-- The responses with the first `n` words of the LCG stream from `x`. -/
def lcgStream (n : Nat) (x : Word) : List Response :=
  (List.range n).map fun k => ⟨.ok, lcgStep^[k + 1] x⟩

theorem lcgStream_succ (n : Nat) (x : Word) :
    lcgStream (n + 1) x = ⟨.ok, lcgStep x⟩ :: lcgStream n (lcgStep x) := by
  simp [lcgStream, List.range_succ_eq_map]

/-- An `LCG.NEXT` puts its response before the stream from the stepped `X`, and any other word leaves the
stream as it is. -/
theorem session_lcgStream {ws : List Cmd} {s : State} (hs : s.seeded = true) (hidx : s.IdxInv)
    (hseed : ∀ w ∈ ws, ∀ v, decode w ≠ .command (.seed v)) :
    ∃ u rs, session ws s = some (u, rs) ∧ lcgResponses ws rs = lcgStream (lcgDraws ws) s.x ∧
      u.x = lcgStep^[lcgDraws ws] s.x := by
  induction ws generalizing s with
  | nil => exact ⟨s, [], rfl, rfl, rfl⟩
  | cons w ws ih =>
    obtain ⟨hw, hws⟩ := List.forall_mem_cons.1 hseed
    obtain ⟨t, hrun⟩ := runCommand_answers w hidx
    obtain ⟨r, hr⟩ := runCommand_exists_rsp hrun
    obtain ⟨u, rs, hsession, hstream, hx⟩ :=
      ih ((runCommand_seeded hrun hw).trans hs) (runCommand_idxInv hrun hidx) hws
    refine ⟨u, r :: rs, session_cons hrun hr hsession, ?_⟩
    by_cases hlcg : decode w = .command .lcgNext
    · obtain ⟨hrsp, hstep⟩ := runCommand_lcgNext hrun hlcg hs
      obtain rfl : r = ⟨.ok, lcgStep s.x⟩ := Option.some.inj (hr.symm.trans hrsp)
      rw [lcgResponses_cons_of_eq hlcg, lcgDraws_cons_of_eq hlcg, lcgStream_succ, hstream, hx, hstep]
      exact ⟨rfl, rfl⟩
    · rw [lcgResponses_cons_of_ne hlcg, lcgDraws_cons_of_ne hlcg, hstream, hx,
        runCommand_x hrun hw hlcg]
      exact ⟨rfl, rfl⟩

/-- Settles O38: the session answers with the LCG stream from `X`. -/
theorem lcgSequenceContinues : Obligations.LcgSequenceContinues :=
  fun _ _ => session_lcgStream

end Sys2Proof.Machine
end

section
/-! ## The array and the cursor of a session (R111, R112, R117)

A word that is no `SEED` moves the cursor of a seeded block as `cursorAfter` says, and twists the array
once exactly when it is an `MT.NEXT` that finds the cursor at 0. -/

namespace Sys2Proof.Machine

/-- On a seeded block no failure is due to a command that only the seeded check could fail. -/
theorem statusDue_eq_ok_of_seeded {i : Instr} (hwf : i.wellFormed = true) (hneeds : needsSeed i = true)
    {s : State} (hs : s.seeded = true) : statusDue s (.command i) = .ok := by
  rw [statusDue_of_needsSeed hwf hneeds, if_pos hs]

/-- The array a draw reads from is twisted once when the cursor is at 0, and no time otherwise. -/
theorem drawArray_eq_iterate (s : State) :
    drawArray s = twist^[if s.idx.toNat = 0 then 1 else 0] s.mt := by
  have hzero : s.idx = 0 ↔ s.idx.toNat = 0 := by rw [← BitVec.toNat_inj]; rfl
  simp only [drawArray, hzero]
  split <;> rfl

section
variable {w : Cmd} {s t : State} (h : runCommand w s = .next t)
include h

/-- A word whose command is due no failure has the command's effect and answer. -/
theorem runCommand_eq_effect {i : Instr} (hw : decode w = .command i)
    (hdue : statusDue s (.command i) = .ok) : t = (effect i s).respond .ok (answer i s) := by
  rw [runCommand_of_command hw, exec_eq, if_neg (not_not.2 hdue)] at h
  split_ifs at h
  exact (done_eq_next.1 h).symm

theorem runCommand_mt_of_ne (hseed : ∀ v, decode w ≠ .command (.seed v))
    (hnext : decode w ≠ .command .mtNext) : t.mt = s.mt :=
  runCommand_keeps (·.mt) h (fun _ => rfl) fun _ hi _ =>
    effect_mt_of_ne (fun v hv => hseed v (hv ▸ hi)) (.inl fun hn => hnext (hn ▸ hi))

theorem runCommand_mt_eq_iterate (hs : s.seeded = true) (hseed : ∀ v, decode w ≠ .command (.seed v)) :
    t.mt = twist^[if decode w = .command .mtNext ∧ s.idx.toNat = 0 then 1 else 0] s.mt := by
  by_cases hnext : decode w = .command .mtNext
  · rw [runCommand_eq_effect h hnext (statusDue_mtNext_eq_ok.2 hs)]
    simp only [hnext, true_and]
    exact drawArray_eq_iterate s
  · simpa [hnext] using runCommand_mt_of_ne h hseed hnext

theorem runCommand_idx_eq_cursorAfter (hs : s.seeded = true) (hidx : s.IdxInv)
    (hseed : ∀ v, decode w ≠ .command (.seed v)) : t.idx.toNat = cursorAfter s.idx.toNat w := by
  rw [cursorAfter]
  split_ifs with hstart hnext
  · rw [runCommand_eq_effect h hstart (statusDue_eq_ok_of_seeded rfl rfl hs)]
    rfl
  · rw [runCommand_eq_effect h hnext (statusDue_mtNext_eq_ok.2 hs)]
    exact nextIdx_toNat hidx
  · have hkept : t.idx = s.idx := runCommand_keeps (·.idx) h (fun _ => rfl) fun _ hi _ =>
      effect_idx_of_ne (fun v hv => hseed v (hv ▸ hi)) (fun hn => hstart (hn ▸ hi))
        (fun hn => hnext (hn ▸ hi)) s
    rw [hkept]

end

/-- By induction over the words, each of them twisting once or not and moving the cursor. -/
theorem session_twistsCounted {ws : List Cmd} {s : State} (hs : s.seeded = true) (hidx : s.IdxInv)
    (hseed : ∀ w ∈ ws, ∀ v, decode w ≠ .command (.seed v)) :
    ∃ u rs, session ws s = some (u, rs) ∧ u.mt = twist^[twistsCounted s.idx.toNat ws] s.mt ∧
      u.idx.toNat = cursorCounted s.idx.toNat ws := by
  induction ws generalizing s with
  | nil => exact ⟨s, [], rfl, rfl, rfl⟩
  | cons w ws ih =>
    obtain ⟨hw, hws⟩ := List.forall_mem_cons.1 hseed
    obtain ⟨t, hrun⟩ := runCommand_answers w hidx
    obtain ⟨r, hr⟩ := runCommand_exists_rsp hrun
    obtain ⟨u, rs, hsession, hmt, hcursor⟩ :=
      ih ((runCommand_seeded hrun hw).trans hs) (runCommand_idxInv hrun hidx) hws
    rw [runCommand_idx_eq_cursorAfter hrun hs hidx hw] at hmt hcursor
    refine ⟨u, r :: rs, session_cons hrun hr hsession, ?_, hcursor⟩
    rw [hmt, runCommand_mt_eq_iterate hrun hs hw, ← Function.iterate_add_apply, twistsCounted,
      Nat.add_comm]

/-- Settles O56: `SEED v` leaves a seeded block with the array that `v` seeds and the cursor at 0. -/
theorem twistsCountedByCommands : Obligations.TwistsCountedByCommands := by
  refine fun ws hseed => ⟨fun s hs hidx => session_twistsCounted hs hidx hseed, fun s v => ?_⟩
  have hrun : runCommand (encode (.seed v)) s = .next ((effect (.seed v) s).respond .ok 0) :=
    (runCommand_of_command (decode_encode _) s).trans (exec_seed v s)
  have hidx : ((effect (.seed v) s).respond .ok 0).IdxInv := by simp [effect, State.IdxInv]
  obtain ⟨u, rs, hsession, hmt, hcursor⟩ := session_twistsCounted rfl hidx hseed
  exact ⟨u, _, session_cons hrun rfl hsession, hmt, hcursor⟩

/-! ### One step (R52, R103) -/

theorem step_idle {s : State} (h : s.host = []) : step s = .next s := by
  simp [step, serveNext, h]

section
variable {w : Cmd} {s t : State} (h : runCommand w s = .next t)
include h

/-- A draw from either generator of an unseeded block fails. -/
theorem runCommand_draw_of_unseeded
    (hw : decode w = .command .lcgNext ∨ decode w = .command .mtNext) (hs : s.seeded = false) :
    t = s.fail .unseeded := by
  have hfail : runCommand w s = failed s .unseeded := by
    obtain hw | hw := hw
    · exact (runCommand_of_command hw s).trans (whenSeeded_of_unseeded hs _)
    · exact (runCommand_of_command hw s).trans (whenSeeded_of_unseeded hs _)
  exact (failed_eq_next.1 (hfail.symm.trans h)).symm

theorem runCommand_seed_of_ne (hseed : ∀ v, decode w ≠ .command (.seed v)) : t.seed = s.seed :=
  runCommand_keeps (·.seed) h (fun _ => rfl) fun _ hi _ =>
    (effect_seed_of_ne (fun v hv => hseed v (hv ▸ hi)) s).1

theorem runCommand_keeps_streams (hseed : ∀ v, decode w ≠ .command (.seed v))
    (hw : s.seeded = false ∨ (decode w ≠ .command .lcgNext ∧ decode w ≠ .command .mtNext)) :
    t.seed = s.seed ∧ t.x = s.x ∧ t.mt = s.mt := by
  by_cases hdraw : decode w = .command .lcgNext ∨ decode w = .command .mtNext
  · have hs : s.seeded = false := hw.resolve_right fun hne => hdraw.elim hne.1 hne.2
    rw [runCommand_draw_of_unseeded h hdraw hs]
    exact ⟨rfl, rfl, rfl⟩
  · obtain ⟨hlcg, hnext⟩ := not_or.1 hdraw
    exact ⟨runCommand_seed_of_ne h hseed, runCommand_x h hseed hlcg, runCommand_mt_of_ne h hseed hnext⟩

end

/-- Settles O28: a step on a command word is the word's command on the block with a free port. -/
theorem stepKeepsTheStreams : Obligations.StepKeepsTheStreams := by
  intro s t h
  have hrun {w : Cmd} {rest : List HostAct} (hhost : s.host = .command w :: rest) :
      runCommand w ({ s with host := rest } : State).takeResponse = .next t :=
    (step_command hhost).symm.trans h
  refine ⟨fun w rest v hhost hw => ?seed, fun w rest hhost hw hs => ?lcgNext,
    fun w rest hhost hw hs => ?mtNext, ?kept⟩
  case seed =>
    rw [runCommand_eq_effect (hrun hhost) hw rfl]
    exact ⟨rfl, rfl, rfl⟩
  case lcgNext =>
    rw [runCommand_eq_effect (hrun hhost) hw (statusDue_eq_ok_of_seeded rfl rfl hs)]
    exact ⟨rfl, rfl, rfl⟩
  case mtNext =>
    rw [runCommand_eq_effect (hrun hhost) hw (statusDue_mtNext_eq_ok.2 hs)]
    exact ⟨rfl, rfl, rfl⟩
  case kept =>
    rintro (hhost | ⟨rest, hhost⟩ | ⟨w, rest, hhost, hseed, hw⟩)
    · cases (step_idle hhost).symm.trans h
      exact ⟨rfl, rfl, rfl⟩
    · cases (step_accept hhost).symm.trans h
      exact ⟨rfl, rfl, rfl⟩
    · exact (runCommand_keeps_streams (hrun hhost) hseed hw :)

end Sys2Proof.Machine
end

section
/-! ## The MT commands (R111, R112, R115) -/

namespace Sys2Proof.Machine

/-- Settles O40: the seeded check stands first, and the effect is the cursor alone. -/
theorem mtStartZeroesTheCursor : Obligations.MtStartZeroesTheCursor :=
  ⟨fun _ => decode_of_encodes ⟨rfl, nofun⟩,
    fun _ hs => whenSeeded_of_unseeded hs _,
    fun _ hs => exec_mtStart_of_seeded hs⟩

/-- Settles O41: the array read from is `drawArray`, and the cursor goes on modulo 624. -/
theorem mtNextDraws : Obligations.MtNextDraws := by
  refine ⟨fun _ => decode_of_encodes ⟨rfl, nofun⟩, fun _ hs => whenSeeded_of_unseeded hs _,
    fun s hs hidx => ⟨drawArray s, nextIdx s.idx, exec_mtNext_of_seeded hs hidx, ?array, ?cursor⟩⟩
  case array =>
    rw [drawArray_eq_iterate]
    split <;> rfl
  case cursor =>
    have hlt : s.idx.toNat < 624 := hidx
    rw [nextIdx_toNat hlt]
    split <;> omega

theorem exec_mtRd_of_lt {k : Word} (h : k.toNat < 624) (s : State) :
    exec (.mtRd k) s = whenSeeded s (done s (s.mt.read k.toNat)) := by
  have hk : mtIndexOf k = some k.toNat := if_pos h
  rw [exec, execMtRd, hk]

/-- Settles O45: the index is checked first, the seeded check stands next. -/
theorem mtRdReadsAWord : Obligations.MtRdReadsAWord := by
  refine ⟨fun i => decode_encode (.mtRd i), fun i s => ⟨fun hi => ?range, fun hi hs => ?unseeded,
    fun hi hs => ?ok⟩⟩
  case range => exact exec_of_not_wellFormed (i := .mtRd i) (decide_eq_false (not_lt.2 hi)) s
  case unseeded => exact (exec_mtRd_of_lt hi s).trans (whenSeeded_of_unseeded hs _)
  case ok => exact (exec_mtRd_of_lt hi s).trans (whenSeeded_of_seeded hs _)

end Sys2Proof.Machine
end

section
/-! ## The twist by its words (R113, R116, R118) -/

namespace Sys2Proof.Machine

/-- The two parts of a twist's word take no bit in common (R118). -/
theorem upper_and_lower_eq_zero (a b : Word) :
    (a &&& 0x80000000#32) &&& (b &&& 0x7FFFFFFF#32) = 0 := by
  have hmasks : 0x80000000#32 &&& 0x7FFFFFFF#32 = 0#32 := by decide
  calc (a &&& 0x80000000#32) &&& (b &&& 0x7FFFFFFF#32)
      = (a &&& b) &&& (0x80000000#32 &&& 0x7FFFFFFF#32) := by ac_rfl
    _ = 0 := by rw [hmasks, BitVec.and_zero]; rfl

theorem upper_add_lower_eq_or (a b : Word) :
    (a &&& 0x80000000#32) + (b &&& 0x7FFFFFFF#32) =
      (a &&& 0x80000000#32) ||| (b &&& 0x7FFFFFFF#32) :=
  BitVec.add_eq_or_of_and_eq_zero _ _ (upper_and_lower_eq_zero a b)

theorem upper_add_lower_lt (a b : Word) :
    (a &&& 0x80000000#32).toNat + (b &&& 0x7FFFFFFF#32).toNat < 2 ^ 32 := by
  have ha : (a &&& 0x80000000#32).toNat ≤ 0x80000000 := Nat.and_le_right
  have hb : (b &&& 0x7FFFFFFF#32).toNat ≤ 0x7FFFFFFF := Nat.and_le_right
  omega

/-- Settles O43: words without a bit in common add without a carry. -/
theorem twistSumIsOr : Obligations.TwistSumIsOr :=
  ⟨fun m i => by rw [upper_add_lower_eq_or]; rfl,
    fun a b => ⟨upper_and_lower_eq_zero a b, upper_add_lower_eq_or a b, upper_add_lower_lt a b⟩⟩

/-- The word a twist step writes, from the three words it reads: bit 0 of the mixed word is the lower
word's. -/
theorem twistWord_eq_twistMix (m : Memory) (i : Nat) :
    twistWord m i =
      twistMix (m.read i) (m.read ((i + 1) % 624)) (m.read ((i + 397) % 624)) := by
  have hbit (hi lo : Word) :
      ((hi &&& 0x80000000#32) ||| (lo &&& 0x7FFFFFFF#32)).getLsbD 0 = lo.getLsbD 0 := by simp
  simp only [twistWord, twistMix, hbit]
  split
  · rfl
  · exact BitVec.xor_zero.symm

/-- The words from `k` on are old after `k` steps. -/
theorem read_twistPrefix_of_le (m : Memory) {k i : Nat} (h : k ≤ i) :
    (twistPrefix m k).read i = m.read i := by
  induction k with
  | zero => rfl
  | succ k ih => rw [twistPrefix_succ, read_twistStep_of_ne (by omega), ih (by omega)]

/-- Word `i` of the twisted array is what step `i` wrote, and is there after any further steps. -/
theorem read_twistPrefix_of_lt {m : Memory} (hm : m.wf) {k i : Nat} (h : i < k) (hk : k ≤ 624) :
    (twistPrefix m k).read i = twistWord (twistPrefix m i) i := by
  induction k, h using Nat.le_induction with
  | base => rw [twistPrefix_succ, read_twistStep_self (wf_twistPrefix hm (by omega))]
  | succ k hik ih => rw [twistPrefix_succ, read_twistStep_of_ne (by omega), ih (by omega)]

theorem read_twist {m : Memory} (hm : m.wf) {i : Nat} (hi : i < 624) :
    (twist m).read i = twistWord (twistPrefix m i) i := read_twistPrefix_of_lt hm hi le_rfl

/-- The words below `k` are new after `k` steps. -/
theorem read_twistPrefix_eq_read_twist {m : Memory} (hm : m.wf) {k i : Nat} (h : i < k)
    (hk : k ≤ 624) : (twistPrefix m k).read i = (twist m).read i :=
  (read_twistPrefix_of_lt hm h hk).trans (read_twist hm (h.trans_le hk)).symm

/-- Word `i` of the twisted array mixes the old word `i` with the words that step `i` finds. -/
theorem read_twist_eq_twistMix {m : Memory} (hm : m.wf) {i : Nat} (hi : i < 624) :
    (twist m).read i = twistMix (m.read i) ((twistPrefix m i).read ((i + 1) % 624))
      ((twistPrefix m i).read ((i + 397) % 624)) := by
  rw [read_twist hm hi, twistWord_eq_twistMix, read_twistPrefix_of_le m le_rfl]

/-- Settles O42: step `i` finds the words below `i` new and the others old. -/
theorem twistReadsOldAndNewWords : Obligations.TwistReadsOldAndNewWords := by
  refine fun m hm => ⟨wf_twist hm, fun i hi => ?early, fun i hlow hhigh => ?late, ?last⟩
  case early =>
    have hlo : (i + 1) % 624 = i + 1 := Nat.mod_eq_of_lt (by omega)
    have hsrc : (i + 397) % 624 = i + 397 := Nat.mod_eq_of_lt (by omega)
    rw [read_twist_eq_twistMix hm (by omega), hlo, hsrc, read_twistPrefix_of_le m (by omega),
      read_twistPrefix_of_le m (by omega)]
  case late =>
    have hlo : (i + 1) % 624 = i + 1 := Nat.mod_eq_of_lt (by omega)
    have hsrc : (i + 397) % 624 = i - 227 := by omega
    rw [read_twist_eq_twistMix hm (by omega), hlo, hsrc, read_twistPrefix_of_le m (by omega),
      read_twistPrefix_eq_read_twist hm (by omega) (by omega)]
  case last =>
    rw [read_twist_eq_twistMix hm (by decide), read_twistPrefix_eq_read_twist hm (by decide) (by decide),
      read_twistPrefix_eq_read_twist hm (by decide) (by decide)]

end Sys2Proof.Machine
end

section
/-! ## The tempering (R114)

`temper` is four lines of two kinds, each the XOR of the word with a shifted and masked copy of it. A line
is linear, and it is injective since a copy shifted by one bit or more equals its word only when both are
0. -/

namespace Sys2Proof.Machine

/-- A line with a right shift. -/
def temperRight (k : Nat) (y : Word) : Word := y ^^^ (y >>> k)

/-- A line with a left shift and a mask. -/
def temperLeft (k : Nat) (mask y : Word) : Word := y ^^^ ((y <<< k) &&& mask)

theorem temper_eq (y : Word) :
    temper y = temperRight 18 (temperLeft 15 0xEFC60000#32
      (temperLeft 7 0x9D2C5680#32 (temperRight 11 y))) := rfl

/-! ### On numbers -/

theorem temperRight_toNat (k : Nat) (y : Word) :
    (temperRight k y).toNat = y.toNat ^^^ (y.toNat / 2 ^ k) := by
  rw [temperRight, BitVec.toNat_xor, BitVec.toNat_ushiftRight, Nat.shiftRight_eq_div_pow]

theorem temperLeft_toNat (k : Nat) (mask y : Word) :
    (temperLeft k mask y).toNat = y.toNat ^^^ ((y.toNat * 2 ^ k) % 2 ^ 32 &&& mask.toNat) := by
  rw [temperLeft, BitVec.toNat_xor, BitVec.toNat_and, BitVec.toNat_shiftLeft, Nat.shiftLeft_eq]

/-! ### Linear -/

/-- Commutes with XOR. -/
def XorLinear (f : Word → Word) : Prop := ∀ a b, f (a ^^^ b) = f a ^^^ f b

theorem xorLinear_ushiftRight (k : Nat) : XorLinear (· >>> k) :=
  fun a b => BitVec.ushiftRight_xor_distrib a b k

theorem xorLinear_shiftLeft_and (k : Nat) (mask : Word) : XorLinear fun y => (y <<< k) &&& mask :=
  fun a b => by
    apply BitVec.eq_of_getLsbD_eq
    intro i _
    simp [BitVec.shiftLeft_xor_distrib, Bool.and_xor_distrib_right]

theorem XorLinear.xor_self {g : Word → Word} (hg : XorLinear g) : XorLinear fun y => y ^^^ g y :=
  fun a b => by
    simp only [hg a b]
    ac_rfl

theorem XorLinear.comp {f g : Word → Word} (hf : XorLinear f) (hg : XorLinear g) :
    XorLinear (f ∘ g) := fun a b => (congrArg f (hg a b)).trans (hf _ _)

theorem xorLinear_temperRight (k : Nat) : XorLinear (temperRight k) :=
  (xorLinear_ushiftRight k).xor_self

theorem xorLinear_temperLeft (k : Nat) (mask : Word) : XorLinear (temperLeft k mask) :=
  (xorLinear_shiftLeft_and k mask).xor_self

theorem xorLinear_temper : XorLinear temper :=
  (xorLinear_temperRight 18).comp ((xorLinear_temperLeft 15 _).comp
    ((xorLinear_temperLeft 7 _).comp (xorLinear_temperRight 11)))

/-! ### Injective -/

/-- XOR with a linear copy of the word is injective when only 0 is its own copy: two words with one image
differ by a word that is its own copy. -/
theorem XorLinear.injective_xor {g : Word → Word} (hg : XorLinear g) (hfix : ∀ d, d = g d → d = 0) :
    Function.Injective fun y => y ^^^ g y := by
  intro a b hab
  have hzero : (a ^^^ b) ^^^ g (a ^^^ b) = 0 :=
    (hg.xor_self a b).trans (BitVec.xor_eq_zero_iff.2 hab)
  exact BitVec.xor_eq_zero_iff.1 (hfix _ (BitVec.xor_eq_zero_iff.1 hzero))

theorem eq_zero_of_eq_ushiftRight {k : Nat} (hk : k ≠ 0) (d : Word) (h : d = d >>> k) : d = 0 := by
  have hdiv : d.toNat = d.toNat / 2 ^ k := by
    simpa [Nat.shiftRight_eq_div_pow] using congrArg BitVec.toNat h
  apply BitVec.eq_of_toNat_eq
  by_contra hne
  have hlt : d.toNat / 2 ^ k < d.toNat :=
    Nat.div_lt_self (Nat.pos_of_ne_zero hne) (Nat.one_lt_two_pow hk)
  omega

/-- Bit by bit from below: bit `i` is bit `i - k`, or 0. -/
theorem eq_zero_of_eq_shiftLeft_and {k : Nat} (hk : k ≠ 0) (mask d : Word)
    (h : d = (d <<< k) &&& mask) : d = 0 := by
  have hbit (i : Nat) : d.getLsbD i = false := by
    induction i using Nat.strong_induction_on with
    | _ i ih =>
      rw [h]
      by_cases hik : i < k
      · simp [hik]
      · simp [ih (i - k) (by omega)]
  exact BitVec.eq_of_getLsbD_eq fun i _ => by simp [hbit i]

theorem temperRight_injective {k : Nat} (hk : k ≠ 0) : Function.Injective (temperRight k) :=
  (xorLinear_ushiftRight k).injective_xor (eq_zero_of_eq_ushiftRight hk)

theorem temperLeft_injective {k : Nat} (hk : k ≠ 0) (mask : Word) :
    Function.Injective (temperLeft k mask) :=
  (xorLinear_shiftLeft_and k mask).injective_xor (eq_zero_of_eq_shiftLeft_and hk mask)

theorem temper_injective : Function.Injective temper :=
  (temperRight_injective (by decide)).comp ((temperLeft_injective (by decide) _).comp
    ((temperLeft_injective (by decide) _).comp (temperRight_injective (by decide))))

theorem temper_bijective : Function.Bijective temper :=
  Finite.injective_iff_bijective.1 temper_injective

/-- Settles O44: line by line; an injective map of the finite set of words is a bijection. -/
theorem temperIsBijective : Obligations.TemperIsBijective := by
  refine ⟨fun y => ?lines, temper_bijective, xorLinear_temper⟩
  exact ⟨_, _, _, _, temperRight_toNat 11 y, temperLeft_toNat 7 0x9D2C5680#32 _,
    temperLeft_toNat 15 0xEFC60000#32 _, temperRight_toNat 18 _, rfl⟩

end Sys2Proof.Machine
end

section
/-! ## The ST commands (R130 to R132) -/

namespace Sys2Proof.Machine

theorem exec_stClr (s : State) : exec .stClr s = done (effect .stClr s) 0 := rfl

/-- Settles O47: no check stands before `ST.CLR`. -/
theorem stClrClearsCounters : Obligations.StClrClearsCounters :=
  ⟨fun _ => decode_of_encodes ⟨rfl, nofun⟩, exec_stClr⟩

theorem n_toNat_eq_stNMax_iff {s : State} :
    s.n.toNat = 2 ^ 27 - 1 ↔ s.n = BitVec.ofNat 32 Config.stNMax :=
  BitVec.toNat_inj (y := BitVec.ofNat 32 Config.stNMax)

section
variable (w : Word) {s : State}

theorem exec_stPush_of_full (hn : s.n = BitVec.ofNat 32 Config.stNMax) :
    exec (.stPush w) s = failed s .full := if_pos hn

theorem exec_stPush_of_not_full (hn : s.n ≠ BitVec.ofNat 32 Config.stNMax) :
    exec (.stPush w) s = done (effect (.stPush w) s) 0 := if_neg hn

end

/-- Settles O49: the one check of `ST.PUSH` is that for capacity. -/
theorem stPushCompletesEverywhere : Obligations.StPushCompletesEverywhere :=
  fun w _ hn => exec_stPush_of_not_full w (mt n_toNat_eq_stNMax_iff.2 hn)

/-- Settles O48: below capacity the accumulator invariants leave room for every addition. -/
theorem stPushCountsAWord : Obligations.StPushCountsAWord := by
  refine ⟨fun w => decode_encode (.stPush w), fun w s => ⟨fun hn => ?full, fun hn hs => ?counts⟩⟩
  case full => exact exec_stPush_of_full w (n_toNat_eq_stNMax_iff.1 hn)
  case counts =>
    have hroom : s.n ≠ BitVec.ofNat 32 Config.stNMax := mt n_toNat_eq_stNMax_iff.2 hn
    refine ⟨_, _, _, exec_stPush_of_not_full w hroom, stPush_n_toNat hs hroom w,
      stPush_ones_toNat hs hroom w, (stPush_runs_toNat hs hroom w).trans ?_⟩
    split <;> rfl

theorem exec_stRd_zero (s : State) : exec (.stRd 0) s = done s s.n := rfl

theorem exec_stRd_one (s : State) : exec (.stRd 1) s = done s s.ones := rfl

theorem exec_stRd_two (s : State) : exec (.stRd 2) s = done s s.runs := rfl

/-- Settles O50: register by register. -/
theorem stRdReadsCounters : Obligations.StRdReadsCounters := by
  refine ⟨fun r => decode_encode (.stRd r), fun r s => ⟨fun hr => ?range, ?n, ?ones, ?runs⟩⟩
  case range => exact exec_of_not_wellFormed (i := .stRd r) (decide_eq_false (not_le.2 hr)) s
  case n => rintro rfl; exact exec_stRd_zero s
  case ones => rintro rfl; exact exec_stRd_one s
  case runs => rintro rfl; exact exec_stRd_two s

end Sys2Proof.Machine
end

section
/-! ## The one bits of a word, and the monobit sum (R133, R139) -/

namespace Sys2Proof.Machine

/-- The positions of the one bits of a word. -/
abbrev oneBits (w : Word) : Finset (Fin 32) := Finset.univ.filter fun i => w.getLsbD i.val = true

theorem popcount_eq_card (w : Word) : popcount w = (oneBits w).card :=
  calc popcount w = ∑ i ∈ Finset.range 32, (w.getLsbD i).toNat := rfl
    _ = ∑ i : Fin 32, (w.getLsbD i.val).toNat := Finset.sum_range _
    _ = (oneBits w).card := by simp only [Finset.card_filter, Bool.toNat, Bool.cond_eq_ite]

/-- The complement has its one bits where the word has none. -/
theorem oneBits_not (w : Word) :
    oneBits (~~~w) = Finset.univ.filter fun i => ¬ w.getLsbD i.val = true := by
  ext i
  simp

theorem popcount_add_popcount_not (w : Word) : popcount w + popcount (~~~w) = 32 := by
  rw [popcount_eq_card, popcount_eq_card, oneBits_not, Finset.card_filter_add_card_filter_not,
    Finset.card_fin]

/-- Settles O51: the sum of the bits counts the positions of the ones. -/
theorem popcountCountsOneBits : Obligations.PopcountCountsOneBits :=
  fun w => ⟨popcount_eq_card w, popcount_le w, popcount_add_popcount_not w⟩

/-- Settles O55: there are at most `32 * N` one bits. -/
theorem monobitSumIsBounded : Obligations.MonobitSumIsBounded := by
  intro s hs
  obtain ⟨-, hones, -⟩ := hs
  have hsum : monobitSum s = 2 * (s.ones.toNat : Int) - 32 * (s.n.toNat : Int) := by
    simp only [monobitSum, totalBitCount]
    omega
  exact ⟨hsum, by omega, by omega⟩

end Sys2Proof.Machine
end

section
/-! ## The counters of a sample (R25 to R28, R134, R137, R138)

`Counts s vs` says that the accumulator holds the sample `vs`. A push appends its word to the sample, and
a command word that is neither a push nor `ST.CLR` leaves the sample as it is. -/

namespace Sys2Proof.Machine

/-! ### One more word -/

theorem onesOf_append_word (vs : List Word) (w : Word) :
    onesOf (vs ++ [w]) = onesOf vs + popcount w := by simp [onesOf]

/-- Another word after `v` and `vs` is a change when it differs from the last of them. -/
theorem changesFrom_append_word (v : Word) (vs : List Word) (w : Word) :
    changesFrom v (vs ++ [w]) = changesFrom v vs + if w ≠ vs.getLastD v then 1 else 0 := by
  induction vs generalizing v with
  | nil => simp [changesFrom]
  | cons u vs ih =>
    rw [List.cons_append, changesFrom, ih, changesFrom, List.getLastD_cons, Nat.add_assoc]

/-- Another word starts a run when it is the first or differs from the last one. -/
theorem runsOf_append_word (vs : List Word) (w p : Word) :
    runsOf (vs ++ [w]) = runsOf vs + if vs = [] ∨ w ≠ vs.getLastD p then 1 else 0 := by
  cases vs with
  | nil => simp [runsOf, changesFrom]
  | cons v vs =>
    rw [List.cons_append, runsOf, changesFrom_append_word, runsOf, List.getLastD_cons, Nat.add_assoc]
    simp

/-! ### The sample an accumulator holds -/

/-- The accumulator holds the sample `vs`: its counters count `vs` within their range (R36), and `PREV`
is the last word of `vs` if there is one. -/
structure Counts (s : State) (vs : List Word) : Prop where
  inv : s.CountInv
  n : s.n.toNat = vs.length
  ones : s.ones.toNat = onesOf vs
  runs : s.runs.toNat = runsOf vs
  prev : s.prev = vs.getLastD s.prev

theorem counts_nil {s : State} (hn : s.n = 0) (hones : s.ones = 0) (hruns : s.runs = 0) :
    Counts s [] where
  inv := by simp [State.CountInv, hn, hones, hruns]
  n := by simp [hn]
  ones := by simp [hones, onesOf]
  runs := by simp [hruns, runsOf]
  prev := rfl

section
variable {s : State} {vs : List Word} (hs : Counts s vs)
include hs

theorem Counts.n_eq_zero_iff : s.n = 0 ↔ vs = [] := by
  rw [← List.length_eq_zero_iff, ← hs.n, ← BitVec.toNat_inj]
  rfl

theorem Counts.not_full (hroom : vs.length < 2 ^ 27 - 1) : s.n ≠ BitVec.ofNat 32 Config.stNMax := by
  rw [ne_eq, ← n_toNat_eq_stNMax_iff, hs.n]
  omega

theorem Counts.push (hroom : vs.length < 2 ^ 27 - 1) (w : Word) :
    Counts (effect (.stPush w) s) (vs ++ [w]) where
  inv := stPush_countInv hs.inv (hs.not_full hroom) w
  n := by rw [stPush_n_toNat hs.inv (hs.not_full hroom), hs.n, List.length_append]; rfl
  ones := by rw [stPush_ones_toNat hs.inv (hs.not_full hroom), hs.ones, onesOf_append_word]
  runs := by
    rw [stPush_runs_toNat hs.inv (hs.not_full hroom), hs.runs, runsOf_append_word vs w s.prev,
      ← hs.prev]
    simp only [hs.n_eq_zero_iff]
  prev := by simp [effect]

/-- The sample is a matter of the four accumulator registers alone. -/
theorem Counts.congr {t : State} (h : t.withAccumulator s = t) : Counts t vs := by
  rw [← h]
  exact ⟨hs.inv, hs.n, hs.ones, hs.runs, hs.prev⟩

end

/-! ### Sessions -/

/-- A command word pushes a word or is no push. -/
theorem pushedWord_cases (w : Cmd) :
    (∃ v, decode w = .command (.stPush v) ∧ pushedWord w = some v) ∨
      ((∀ v, decode w ≠ .command (.stPush v)) ∧ pushedWord w = none) := by
  unfold pushedWord
  split
  · next v hv => exact .inl ⟨v, hv, rfl⟩
  · next hne => exact .inr ⟨hne, rfl⟩

/-- A command word that is neither `ST.CLR` nor a push leaves the accumulator. -/
theorem runCommand_accumulator {w : Cmd} {s t : State} (h : runCommand w s = .next t)
    (hclr : decode w ≠ .command .stClr) (hpush : ∀ v, decode w ≠ .command (.stPush v)) :
    t.withAccumulator s = t := by
  have hkept : (t.n, t.ones, t.runs, t.prev) = (s.n, s.ones, s.runs, s.prev) := by
    refine runCommand_keeps (fun u => (u.n, u.ones, u.runs, u.prev)) h (fun _ => rfl) fun i hi d => ?_
    have hne (v : Word) (hv : i = .stPush v) : False := hpush v (hv ▸ hi)
    obtain ⟨hn, hones, hruns⟩ := effect_counters_of_ne (fun hc => hclr (hc ▸ hi)) hne s
    simp [hn, hones, hruns, effect_prev_of_ne hne]
  simp only [Prod.mk.injEq] at hkept
  obtain ⟨hn, hones, hruns, hprev⟩ := hkept
  simp [State.withAccumulator, ← hn, ← hones, ← hruns, ← hprev]

theorem runCommand_counts {w : Cmd} {s t : State} {vs : List Word} (h : runCommand w s = .next t)
    (hclr : decode w ≠ .command .stClr) (hs : Counts s vs)
    (hroom : (vs ++ (pushedWord w).toList).length ≤ 2 ^ 27 - 1) :
    Counts t (vs ++ (pushedWord w).toList) := by
  obtain ⟨v, hv, hpushed⟩ | ⟨hpush, hpushed⟩ := pushedWord_cases w
  · have hlt : vs.length < 2 ^ 27 - 1 := by
      rw [hpushed, List.length_append] at hroom
      exact hroom
    have hdue : statusDue s (.command (.stPush v)) = .ok := by
      rw [statusDue_stPush, if_neg (hs.not_full hlt)]
    rw [hpushed, runCommand_eq_effect h hv hdue]
    exact (hs.push hlt v).congr rfl
  · rw [hpushed, Option.toList_none, List.append_nil]
    exact hs.congr (runCommand_accumulator h hclr hpush)

/-- By induction over the words, each of them appending to the sample what it pushes. -/
theorem session_counts {ws : List Cmd} {s : State} {vs : List Word} (hidx : s.IdxInv)
    (hs : Counts s vs) (hclr : ∀ w ∈ ws, decode w ≠ .command .stClr)
    (hroom : (vs ++ ws.filterMap pushedWord).length ≤ 2 ^ 27 - 1) :
    ∃ u rs, session ws s = some (u, rs) ∧ Counts u (vs ++ ws.filterMap pushedWord) := by
  induction ws generalizing s vs with
  | nil => exact ⟨s, [], rfl, by simpa using hs⟩
  | cons w ws ih =>
    obtain ⟨hw, hws⟩ := List.forall_mem_cons.1 hclr
    have hsplit : vs ++ (w :: ws).filterMap pushedWord =
        (vs ++ (pushedWord w).toList) ++ ws.filterMap pushedWord := by
      cases hpushed : pushedWord w <;> simp [hpushed]
    rw [hsplit] at hroom ⊢
    obtain ⟨t, hrun⟩ := runCommand_answers w hidx
    obtain ⟨r, hr⟩ := runCommand_exists_rsp hrun
    have ht : Counts t (vs ++ (pushedWord w).toList) := by
      refine runCommand_counts hrun hw hs (le_trans ?_ hroom)
      simp
    obtain ⟨u, rs, hsession, hu⟩ := ih (runCommand_idxInv hrun hidx) ht hws hroom
    exact ⟨u, r :: rs, session_cons hrun hr hsession, hu⟩

/-- Settles O52: an empty accumulator holds the empty sample, and the session appends the words pushed. -/
theorem countersOfASample : Obligations.CountersOfASample := by
  intro ws s hidx hn hones hruns hclr hroom
  obtain ⟨u, rs, hsession, hu⟩ := session_counts hidx (counts_nil hn hones hruns) hclr hroom
  exact ⟨u, rs, hsession, hu.n, hu.ones, hu.runs⟩

/-! ### At capacity (R137) -/

/-- A session that starts with the encoding of a command. -/
theorem session_encode_cons {i : Instr} {is : List Instr} {s t u : State} {r : Response}
    {rs : List Response} (h : exec i s = .next t) (hr : t.rsp = some r)
    (hs : session (is.map encode) t = some (u, rs)) :
    session ((i :: is).map encode) s = some (u, r :: rs) :=
  session_cons ((runCommand_of_command (decode_encode i) s).trans h) hr hs

theorem counts_after_stClr (s : State) : Counts ((effect .stClr s).respond .ok 0) [] :=
  counts_nil rfl rfl rfl

/-- Settles O53: the failing push and the reads keep the counters; after `ST.CLR` the accumulator holds
the empty sample, and after the last push the sample of one word. -/
theorem fullIsRecoverable : Obligations.FullIsRecoverable := by
  intro s w v hn
  have hempty := counts_after_stClr
    ((((s.fail .full).respond .ok s.n).respond .ok s.ones).respond .ok s.runs)
  have hword := hempty.push (by decide) v
  refine ⟨_, ?session, BitVec.eq_of_toNat_eq hword.n, ?ones, BitVec.eq_of_toNat_eq hword.runs, rfl, rfl⟩
  case session =>
    exact session_encode_cons (exec_stPush_of_full w (n_toNat_eq_stNMax_iff.1 hn)) rfl <|
      session_encode_cons (exec_stRd_zero _) rfl <|
      session_encode_cons (exec_stRd_one _) rfl <|
      session_encode_cons (exec_stRd_two _) rfl <|
      session_encode_cons (exec_stClr _) rfl <|
      session_encode_cons (exec_stPush_of_not_full v (hempty.not_full (by decide))) rfl <|
      session_nil _
  case ones => exact hword.ones.trans (by simp [onesOf])

end Sys2Proof.Machine
end

section
/-! ## Failures (R150 to R158)

An answered command word failed as it was due, and did nothing but `State.fail`, or was due OK and had its
effect. What is due, the effect, and whether the machine stops do not depend on the latch or the response
on offer, so a failing command leaves no trace but in these. -/

namespace Sys2Proof.Machine

/-! ### The latch and the port -/

theorem State.fail_eq (s : State) (c : Status) :
    s.fail c =
      { s with err := true, errcode := if s.err then s.errcode else c.code, rsp := some ⟨c, 0⟩ } := rfl

/-- Settles O15: by whether a failure was latched before. -/
theorem failLatchesTheFirstCode : Obligations.FailLatchesTheFirstCode := by
  intro s c hc
  refine ⟨fun herr => ?first, fun herr => ?later, Status.code_bounds hc⟩
  case first => simp [State.fail_eq, herr]
  case later => simp [State.fail_eq, herr]

/-- Settles O17: an opcode that is none of the eleven decodes to the illegal command, whose failure
`State.fail_eq` writes out. -/
theorem illegalOpcodeFails : Obligations.IllegalOpcodeFails := by
  intro op d s hop
  have hill : decode (op ++ d) = .illegal op :=
    (decode_append op d).trans (decodeFields_eq_illegal_iff.2 hop)
  rw [runCommand_of_illegal hill, State.fail_eq]
  rfl

/-- Settles O6: the two acts that run no command. -/
theorem stepIdleAndStepAccept : Obligations.StepIdleAndStepAccept :=
  ⟨fun _ => step_idle, fun _ _ => step_accept⟩

/-! ### The status of every command word (R157) -/

/-- A command that answers failed as it was due, or was due OK and had its effect. -/
theorem exec_due_cases {i : Instr} {s t : State} (h : exec i s = .next t) :
    (statusDue s (.command i) ≠ .ok ∧ t = s.fail (statusDue s (.command i))) ∨
      (statusDue s (.command i) = .ok ∧ t = (effect i s).respond .ok (answer i s)) := by
  rw [exec_eq] at h
  split_ifs at h with hdue
  · exact .inl ⟨hdue, (failed_eq_next.1 h).symm⟩
  · exact .inr ⟨not_not.1 hdue, (done_eq_next.1 h).symm⟩

section
variable {w : Cmd} {s t : State} (h : runCommand w s = .next t)
include h

/-- A command word that is answered failed as it was due, or was due OK and ran its command. -/
theorem runCommand_due_cases :
    (statusDue s (decode w) ≠ .ok ∧ t = s.fail (statusDue s (decode w))) ∨
      (statusDue s (decode w) = .ok ∧
        ∃ i, decode w = .command i ∧ t = (effect i s).respond .ok (answer i s)) := by
  obtain ⟨op, hop, rfl⟩ | ⟨i, hi, hexec⟩ := runCommand_cases h
  · rw [hop]
    exact .inl ⟨by simp [statusDue], rfl⟩
  · rw [hi]
    exact (exec_due_cases hexec).imp_right fun ⟨hdue, ht⟩ => ⟨hdue, i, rfl, ht⟩

theorem runCommand_status : ∃ d, t.rsp = some ⟨statusDue s (decode w), d⟩ := by
  obtain ⟨-, rfl⟩ | ⟨hdue, i, -, rfl⟩ := runCommand_due_cases h
  · exact ⟨0, rfl⟩
  · exact ⟨answer i s, by rw [hdue, State.respond_rsp]⟩

theorem status_eq_due {r : Response} (hr : t.rsp = some r) : r.status = statusDue s (decode w) := by
  obtain ⟨d, hd⟩ := runCommand_status h
  obtain rfl : r = ⟨statusDue s (decode w), d⟩ := Option.some.inj (hr.symm.trans hd)
  rfl

theorem runCommand_eq_fail (hdue : statusDue s (decode w) ≠ .ok) :
    t = s.fail (statusDue s (decode w)) := by
  obtain ⟨-, ht⟩ | ⟨hok, -⟩ := runCommand_due_cases h
  · exact ht
  · exact absurd hok hdue

theorem runCommand_latch_of_due_ok (hdue : statusDue s (decode w) = .ok) :
    t.err = s.err ∧ t.errcode = s.errcode := by
  obtain ⟨hne, -⟩ | ⟨-, i, -, rfl⟩ := runCommand_due_cases h
  · exact absurd hdue hne
  · exact ⟨effect_err i s, effect_errcode i s⟩

end

/-- Settles O16: a word is answered while the cursor is in range, with the status it is due. -/
theorem statusByOrderOfChecks : Obligations.StatusByOrderOfChecks := by
  intro w s hidx
  obtain ⟨t, hrun⟩ := runCommand_answers w hidx
  obtain ⟨d, hrsp⟩ := runCommand_status hrun
  exact ⟨t, d, hrun, hrsp⟩

/-! ### RANGE (R154) -/

theorem statusDue_eq_range_iff {i : Instr} {s : State} :
    statusDue s (.command i) = .range ↔ i.wellFormed = false := by
  rw [statusDue]
  split_ifs with hwf <;> simp [hwf]

/-- On any one state, a command fails with RANGE exactly when its operand is out of range. -/
theorem exec_eq_fail_range_iff {i : Instr} {s : State} :
    exec i s = .next (s.fail .range) ↔ i.wellFormed = false := by
  refine ⟨fun h => ?_, fun h => exec_of_not_wellFormed h s⟩
  have hdue : Status.range = statusDue s (decode (encode i)) :=
    status_eq_due ((runCommand_of_command (decode_encode i) s).trans h) (State.fail_rsp s .range)
  rw [decode_encode] at hdue
  exact statusDue_eq_range_iff.1 hdue.symm

/-- Settles O18: RANGE is due whatever the state, and one state is enough to tell. -/
theorem rangeFailsExactlyOutOfRange : Obligations.RangeFailsExactlyOutOfRange := fun _ =>
  ⟨fun h _ => exec_eq_fail_range_iff.2 h, fun h => exec_eq_fail_range_iff.1 (h State.reset)⟩

/-! ### No trace of a failing command (R158) -/

/-- The block of `s` with another error latch and another response on offer: all that a failing command
can have changed. -/
def State.withLatch (s : State) (e : Bool) (code : BitVec 4) (o : Option Response) : State :=
  { s with err := e, errcode := code, rsp := o }

section
variable (s : State) (e : Bool) (code : BitVec 4) (o : Option Response)

@[simp] theorem State.withLatch_idx : (s.withLatch e code o).idx = s.idx := rfl

@[simp] theorem statusDue_withLatch (c : Decoded) :
    statusDue (s.withLatch e code o) c = statusDue s c := rfl

@[simp] theorem effect_withLatch (i : Instr) :
    effect i (s.withLatch e code o) = (effect i s).withLatch e code o := by
  cases i <;> rfl

/-- With both replaced, nothing is left of a failure. -/
@[simp] theorem State.fail_withLatch (c : Status) :
    (s.fail c).withLatch e code o = s.withLatch e code o := rfl

@[simp] theorem State.withLatch_self : s.withLatch s.err s.errcode s.rsp = s := rfl

end

section
variable {w : Cmd} {s t : State}

/-- With another latch a command word that is due OK makes the same change; its answer may differ, since
`SYS.RD` reads the latch. -/
theorem runCommand_withLatch (h : runCommand w s = .next t) (hdue : statusDue s (decode w) = .ok)
    (e : Bool) (code : BitVec 4) (o : Option Response) :
    ∃ r, runCommand w (s.withLatch e code o) = .next (t.withLatch e code (some r)) := by
  obtain ⟨hne, -⟩ | ⟨-, i, hi, -⟩ := runCommand_due_cases h
  · exact absurd hdue hne
  rw [hi] at hdue
  rw [runCommand_of_command hi, exec_eq, if_neg (not_not.2 hdue)] at h
  rw [runCommand_of_command hi, exec_eq, statusDue_withLatch, if_neg (not_not.2 hdue),
    State.withLatch_idx, effect_withLatch]
  split_ifs at h ⊢
  rw [← done_eq_next.1 h]
  exact ⟨_, rfl⟩

theorem keepSuccessful_cons_of_due_ok (h : runCommand w s = .next t)
    (hdue : statusDue s (decode w) = .ok) (ws : List Cmd) :
    keepSuccessful (w :: ws) s = w :: keepSuccessful ws t := by
  obtain ⟨d, hd⟩ := runCommand_status h
  simp [keepSuccessful, h, hd, hdue]

theorem keepSuccessful_cons_of_due_failure (h : runCommand w s = .next t)
    (hdue : statusDue s (decode w) ≠ .ok) (ws : List Cmd) :
    keepSuccessful (w :: ws) s = keepSuccessful ws t := by
  obtain ⟨d, hd⟩ := runCommand_status h
  simp [keepSuccessful, h, hd, hdue]

end

/-- The session without the failing words, from any latch, goes through the same states but for the
latch, which it keeps, and the response on offer. -/
theorem session_keepSuccessful {ws : List Cmd} {s u : State} {rs : List Response}
    (h : session ws s = some (u, rs)) (e : Bool) (code : BitVec 4) (o : Option Response) :
    ∃ o' rs', session (keepSuccessful ws s) (s.withLatch e code o) =
      some (u.withLatch e code o', rs') := by
  induction ws generalizing s rs o with
  | nil =>
    obtain ⟨rfl, -⟩ : s = u ∧ [] = rs := by simpa using h
    exact ⟨o, [], rfl⟩
  | cons w ws ih =>
    obtain ⟨t, r, rest, hrun, -, hs, -⟩ := session_cons_cases h
    by_cases hdue : statusDue s (decode w) = .ok
    · obtain ⟨r', hrun'⟩ := runCommand_withLatch hrun hdue e code o
      obtain ⟨o', rs', hs'⟩ := ih hs (some r')
      rw [keepSuccessful_cons_of_due_ok hrun hdue]
      exact ⟨o', r' :: rs', session_cons hrun' rfl hs'⟩
    · obtain rfl := runCommand_eq_fail hrun hdue
      rw [keepSuccessful_cons_of_due_failure hrun hdue,
        ← State.fail_withLatch s e code o (statusDue s (decode w))]
      exact ih hs o

/-- Settles O19: a failure is `State.fail`, which the commands after it cannot tell from nothing. -/
theorem failingCommandsLeaveNoTrace : Obligations.FailingCommandsLeaveNoTrace := by
  refine ⟨fun w s t c d h hrsp => ?one, fun ws s u rs h => ?session⟩
  case one =>
    obtain rfl : c = statusDue s (decode w) := status_eq_due h hrsp
    refine ⟨fun hne => ?_, runCommand_latch_of_due_ok h⟩
    rw [runCommand_eq_fail h hne]
    rfl
  case session =>
    obtain ⟨o, rs', hs⟩ := session_keepSuccessful h s.err s.errcode s.rsp
    rw [State.withLatch_self] at hs
    exact ⟨_, rs', hs, rfl⟩

end Sys2Proof.Machine
end

section
/-! ## What no response depends on (R182, R155)

Two states that look alike are due the same failures; a command that reads a register they may differ in
is due OK only when the register holds a value, so it answers the same, and its effect leaves states that
look alike. -/

namespace Sys2Proof.Machine

theorem wellFormed_of_due_ok {i : Instr} {s : State} (hdue : statusDue s (.command i) = .ok) :
    i.wellFormed = true := by
  cases hwf : i.wellFormed with
  | true => rfl
  | false => cases (statusDue_of_not_wellFormed hwf s).symm.trans hdue

/-- A command that reads generator state is due OK on a seeded block only (R155). -/
theorem seeded_of_due_ok {i : Instr} {s : State} (hdue : statusDue s (.command i) = .ok)
    (hneeds : needsSeed i = true) : s.seeded = true := by
  rw [statusDue_of_needsSeed (wellFormed_of_due_ok hdue) hneeds] at hdue
  cases hs : s.seeded with
  | true => rfl
  | false => simp [hs] at hdue

section
variable {s t : State} (h : s.SameVisible t)
include h

/-! ### One command -/

theorem State.SameVisible.respond_both (st : Status) (d : Word) :
    (s.respond st d).SameVisible (t.respond st d) :=
  { h with rsp := rfl }

theorem State.SameVisible.fail_both (c : Status) : (s.fail c).SameVisible (t.fail c) :=
  { h with err := rfl, errcode := by simp [h.err, h.errcode], rsp := rfl }

theorem State.SameVisible.statusDue_eq (c : Decoded) : statusDue s c = statusDue t c := by
  cases c with
  | command i => simp only [statusDue, h.seeded, h.n]
  | illegal op => rfl

/-- `PREV` is compared only while `N` is not 0 (R131). -/
theorem State.SameVisible.startsRun_iff (w : Word) :
    (s.n = 0 ∨ w ≠ s.prev) ↔ (t.n = 0 ∨ w ≠ t.prev) := by
  rw [← h.n]
  exact or_congr_right' fun hn => by rw [h.prev hn]

/-- The effect of any command, whether it is due OK or not: what it writes from the generators, it writes
on both sides alike while the block is seeded. -/
theorem State.SameVisible.effect_both (i : Instr) : (effect i s).SameVisible (effect i t) := by
  cases i with
  | nop | sysRd r | lcgRd | mtRd k | stRd r => exact h
  | seed v => exact { h with seeded := rfl, generators := fun _ => ⟨rfl, rfl, rfl, rfl⟩ }
  | lcgNext =>
    refine { h with generators := fun hs => ?_ }
    obtain ⟨hseed, hx, hmt, hidx⟩ := h.generators hs
    exact ⟨hseed, congrArg lcgStep hx, hmt, hidx⟩
  | mtStart =>
    refine { h with generators := fun hs => ?_ }
    obtain ⟨hseed, hx, hmt, -⟩ := h.generators hs
    exact ⟨hseed, hx, hmt, rfl⟩
  | mtNext =>
    refine { h with generators := fun hs => ?_ }
    obtain ⟨hseed, hx, hmt, hidx⟩ := h.generators hs
    exact ⟨hseed, hx, by simp [effect, drawArray, hmt, hidx], congrArg nextIdx hidx⟩
  | stClr => exact { h with n := rfl, ones := rfl, runs := rfl, prev := fun hn => absurd rfl hn }
  | stPush w =>
    exact { h with
      n := by simp only [effect, h.n]
      ones := by simp only [effect, h.ones]
      runs := by simp only [effect, h.startsRun_iff, h.runs]
      prev := fun _ => rfl }

/-- The data of a command that is due OK. -/
theorem State.SameVisible.answer_eq {i : Instr} (hdue : statusDue s (.command i) = .ok) :
    answer i s = answer i t := by
  have hgen (hneeds : needsSeed i = true) := h.generators (seeded_of_due_ok hdue hneeds)
  cases i with
  | nop | seed v | mtStart | stClr | stPush w => rfl
  | sysRd r =>
    obtain rfl | rfl | rfl := register_cases (by simpa [Instr.wellFormed] using wellFormed_of_due_ok hdue)
    · simp [answer, statusWord, h.seeded, h.err, h.errcode]
    · obtain ⟨hseed, -⟩ := hgen rfl
      exact hseed
    · obtain ⟨-, -, -, hidx⟩ := hgen rfl
      simp [answer, hidx]
  | lcgNext | lcgRd =>
    obtain ⟨-, hx, -, -⟩ := hgen rfl
    simp [answer, hx]
  | mtNext | mtRd k =>
    obtain ⟨-, -, hmt, hidx⟩ := hgen rfl
    simp [answer, drawArray, hmt, hidx]
  | stRd r => simp [answer, h.n, h.ones, h.runs]

/-- The one stop (log entry 7) is met from both states or from none. -/
theorem State.SameVisible.stop_iff {i : Instr} (hdue : statusDue s (.command i) = .ok) :
    (i = .mtNext ∧ 624 ≤ s.idx.toNat) ↔ (i = .mtNext ∧ 624 ≤ t.idx.toNat) := by
  refine and_congr_right ?_
  rintro rfl
  obtain ⟨-, -, -, hidx⟩ := h.generators (seeded_of_due_ok hdue rfl)
  rw [hidx]

theorem State.SameVisible.exec_both (i : Instr) : SameOutcome (exec i s) (exec i t) := by
  rw [exec_eq i s, exec_eq i t, ← h.statusDue_eq]
  by_cases hdue : statusDue s (.command i) = .ok
  · rw [if_neg (not_not.2 hdue), if_neg (not_not.2 hdue), ← h.answer_eq hdue]
    simp only [h.stop_iff hdue]
    split_ifs
    · exact rfl
    · exact (h.effect_both i).respond_both .ok _
  · rw [if_pos hdue, if_pos hdue]
    exact h.fail_both _

/-! ### One step -/

theorem State.SameVisible.runCommand_both (w : Cmd) :
    SameOutcome (runCommand w s) (runCommand w t) := by
  cases hw : decode w with
  | command i =>
    rw [runCommand_of_command hw, runCommand_of_command hw]
    exact h.exec_both i
  | illegal op =>
    rw [runCommand_of_illegal hw, runCommand_of_illegal hw]
    exact h.fail_both .illegal

theorem State.SameVisible.withHost_both (acts : List HostAct) :
    ({ s with host := acts } : State).SameVisible { t with host := acts } :=
  { h with host := rfl }

theorem State.SameVisible.takeResponse_both : s.takeResponse.SameVisible t.takeResponse :=
  { h with rsp := rfl, delivered := by simp [h.delivered, h.rsp] }

theorem State.SameVisible.afterReset_both : s.afterReset.SameVisible t.afterReset := by
  have hport : s.afterReset = t.afterReset := by
    simp only [State.afterReset, h.host, h.delivered]
  rw [hport]
  exact ⟨rfl, rfl, rfl, rfl, rfl, rfl, rfl, rfl, rfl, fun _ => ⟨rfl, rfl, rfl, rfl⟩, fun _ => rfl⟩

theorem State.SameVisible.step_both : SameOutcome (step s) (step t) := by
  cases hacts : s.host with
  | nil =>
    rw [step_idle hacts, step_idle (h.host.symm.trans hacts)]
    exact h
  | cons a rest =>
    have hacts' : t.host = a :: rest := h.host.symm.trans hacts
    have hrest := h.withHost_both rest
    cases a with
    | command w =>
      rw [step_command hacts, step_command hacts']
      exact hrest.takeResponse_both.runCommand_both w
    | accept =>
      rw [step_accept hacts, step_accept hacts']
      exact hrest.takeResponse_both
    | reset =>
      rw [step_reset hacts, step_reset hacts']
      exact hrest.afterReset_both

end

/-! ### Any number of steps -/

theorem run_succ_of_next {s u : State} (h : step s = .next u) (k : Nat) :
    Sys2Proof.core.run (k + 1) s = Sys2Proof.core.run k u := by
  simp [Host.Core.run, Sys2Proof.core, h]

theorem run_succ_of_stop {s : State} (h : ∀ u, step s ≠ .next u) (k : Nat) :
    Sys2Proof.core.run (k + 1) s = step s := by
  cases hs : step s with
  | next u => exact absurd hs (h u)
  | fault f => simp [Host.Core.run, Sys2Proof.core, hs]
  | refused r => simp [Host.Core.run, Sys2Proof.core, hs]

/-- Outcomes that look alike both go on, to states that look alike, or both stop. -/
theorem SameOutcome.next_or_stop {o p : Host.Outcome State Fault Refusal} (h : SameOutcome o p) :
    (∃ s t, o = .next s ∧ p = .next t ∧ s.SameVisible t) ∨
      ((∀ u, o ≠ .next u) ∧ ∀ u, p ≠ .next u) := by
  unfold SameOutcome at h
  split at h
  · next s t => exact .inl ⟨s, t, rfl, rfl, h⟩
  · exact .inr ⟨nofun, nofun⟩
  · exact .inr ⟨nofun, nofun⟩
  · exact h.elim

/-- Settles O29: by induction over the steps, of which each keeps the likeness. -/
theorem unspecifiedRegistersAreUnobservable : Obligations.UnspecifiedRegistersAreUnobservable := by
  intro k
  induction k with
  | zero => exact fun s t h => h
  | succ k ih =>
    intro s t h
    obtain ⟨s', t', hs, ht, h'⟩ | ⟨hs, ht⟩ := h.step_both.next_or_stop
    · rw [run_succ_of_next hs, run_succ_of_next ht]
      exact ih s' t' h'
    · rw [run_succ_of_stop hs, run_succ_of_stop ht]
      exact h.step_both

end Sys2Proof.Machine
end

section
/-! ## Reset, and steps without end (R180 to R183, R193) -/

namespace Sys2Proof.Machine

theorem effect_keeps_seeded {s : State} (hs : s.seeded = true) (i : Instr) :
    (effect i s).seeded = true := by
  cases i with
  | seed v => rfl
  | _ => exact hs

theorem runCommand_keeps_seeded {w : Cmd} {s t : State} (h : runCommand w s = .next t)
    (hs : s.seeded = true) : t.seeded = true :=
  (runCommand_keeps (·.seeded) h (fun _ => rfl) fun i _ _ => (effect_keeps_seeded hs i).trans hs.symm).trans hs

/-- Of the acts of the host only a reset clears `SEEDED`. -/
theorem step_keeps_seeded {s t : State} (h : step s = .next t)
    (hreset : ∀ rest, s.host ≠ .reset :: rest) (hs : s.seeded = true) : t.seeded = true := by
  obtain ⟨-, rfl⟩ | ⟨w, rest, -, hrun⟩ | ⟨rest, -, rfl⟩ | ⟨rest, hhost, -⟩ := step_cases h
  · exact hs
  · exact runCommand_keeps_seeded hrun hs
  · exact hs
  · exact absurd hhost (hreset rest)

/-- Settles O7: the state after power-on and after a reset is an `afterReset`; the latch is kept by
`stepKeepsTheLatch`. -/
theorem resetEffectAndOnlyResetClears : Obligations.ResetEffectAndOnlyResetClears := by
  obtain ⟨-, -, hlatch⟩ := stepKeepsTheLatch
  refine ⟨fun r hr => ?values, fun s rest hhost => ⟨_, step_reset hhost⟩, fun s t h hreset =>
    ⟨step_keeps_seeded h hreset, hlatch s t h hreset⟩⟩
  case values =>
    have hafter : ∃ s : State, r = s.afterReset := by
      obtain rfl | ⟨s, rest, hhost, hstep⟩ := hr
      · exact ⟨State.reset, rfl⟩
      · cases (step_reset hhost).symm.trans hstep
        exact ⟨_, rfl⟩
    obtain ⟨s, rfl⟩ := hafter
    exact ⟨rfl, rfl, rfl, rfl, rfl, rfl⟩

/-- Settles O8: `afterReset` keeps the host's acts and its record, and offers no response. -/
theorem resetAbandonsTheResponse : Obligations.ResetAbandonsTheResponse :=
  fun _ _ hhost => ⟨_, step_reset hhost, rfl, rfl, rfl⟩

/-- With the cursor in range every act of the host is answered. -/
theorem step_answers {s : State} (hidx : s.IdxInv) : ∃ t, step s = .next t := by
  cases hacts : s.host with
  | nil => exact ⟨s, step_idle hacts⟩
  | cons a rest =>
    cases a with
    | command w =>
      obtain ⟨t, hrun⟩ := runCommand_answers w (s := ({ s with host := rest } : State).takeResponse) hidx
      exact ⟨t, (step_command hacts).trans hrun⟩
    | accept => exact ⟨_, step_accept hacts⟩
    | reset => exact ⟨_, step_reset hacts⟩

/-- Settles O13: by induction over the steps, each of them answered with the cursor in range. -/
theorem theMachineNeverStops : Obligations.TheMachineNeverStops := by
  intro k
  induction k with
  | zero => exact fun s hidx => ⟨s, rfl, hidx⟩
  | succ k ih =>
    intro s hidx
    obtain ⟨t, hstep⟩ := step_answers hidx
    rw [run_succ_of_next hstep]
    exact ih t (stepKeepsTheCursorInRange s t hidx hstep)

end Sys2Proof.Machine
end
